-- ==== Sys2Proof/Word.lean ====
section
/-! DEFINITION. The word types of the core (spec/00_scope.md rules R7, R9). Everything is unsigned. -/

namespace Sys2Proof

/-- One byte of a frame, of the block buffer or of a digest. -/
abbrev Byte := BitVec 8

/-- A 64-bit word of the chaining state, of a message block or of the work vector (R7). -/
abbrev Word := BitVec 64

/-- The 128-bit byte counter (R23). -/
abbrev Counter := BitVec 128

/-- `H[0..7]`: eight words (R22). -/
abbrev Chain := Vector Word 8

/-- `M[0..15]`: one message block of sixteen words (R7, R53). -/
abbrev Block := Vector Word 16

/-- `V[0..15]`: the engine's work vector (R29). -/
abbrev Work := Vector Word 16

end Sys2Proof
end

