-- ==== Sys2Proof/Machine/Bytes.lean ====
section
/-! DEFINITION. Little-endian views of byte strings: the one place where the byte order is decided
(spec/20_memory.md rules R53 to R56). -/

namespace Sys2Proof.Machine

/-- The unsigned little-endian value of a byte string: its first byte is the least significant (R52, R55). -/
def leValue : List Byte → Nat
  | [] => 0
  | b :: bs => b.toNat + 256 * leValue bs

/-- The `n` low bytes of `v`, least significant first (R52, R55). -/
def leBytes : Nat → Nat → List Byte
  | 0, _ => []
  | n + 1, v => BitVec.ofNat 8 v :: leBytes n (v / 256)

/-- Byte `j` of a word, `w[8j+7 : 8j]` (R12). -/
def wordByte (w : Word) (j : Nat) : Byte := w.extractLsb' (8 * j) 8

/-- The eight bytes of a word in little-endian order (R12). -/
def wordBytes (w : Word) : List Byte := (List.range 8).map (wordByte w)

/-- The word whose byte `j` is `byte j`: `Σ byte(j) · 2^(8j)` for `j` in 0..8 (R53, R144). -/
def wordOf (byte : Nat → Byte) : Word := BitVec.ofNat 64 (leValue ((List.range 8).map byte))

/-- The block whose byte `k` is `byte k`, for `k` in 0..128: word `i` is made of bytes `8i .. 8i+7` (R53). -/
def blockOf (byte : Nat → Byte) : Block := Vector.ofFn fun i : Fin 16 => wordOf fun j => byte (8 * i.val + j)

/-- The 64 bytes of a chaining state: words 0..7 in order, each little-endian (R54). -/
def chainBytes (h : Chain) : List Byte := h.toList.flatMap wordBytes

end Sys2Proof.Machine
end

