-- ==== Sys2Proof/Machine/Engine.lean ====
section
/-! DEFINITION. The compression engine (spec/40_compression_engine.md): a pure function of its four inputs. -/

namespace Sys2Proof.Machine

/-- `ADD64`: the carry out of bit 63 is discarded (R101). -/
def add64 (a b : Word) : Word := a + b

/-- `ADD64_3` (R101). -/
def add64x3 (a b x : Word) : Word := a + b + x

/-- `XOR64` (R102). -/
def xor64 (a b : Word) : Word := a ^^^ b

/-- `ROTR64(x, n)`, for the amounts 32, 24, 16 and 63 (R103). -/
def rotr64 (x : Word) (n : Nat) : Word := (x >>> n) ||| (x <<< (64 - n))

/-- `NOT64` (R104). -/
def not64 (a : Word) : Word := a ^^^ 0xFFFFFFFFFFFFFFFF

/-- The initialization vector `IV[0..7]` (R105; log 17). -/
def iv : Chain :=
  #v[0x6A09E667F3BCC908, 0xBB67AE8584CAA73B, 0x3C6EF372FE94F82B, 0xA54FF53A5F1D36F1,
     0x510E527FADE682D1, 0x9B05688C2B3E6C1F, 0x1F83D9ABFB41BD6B, 0x5BE0CD19137E2179]

/-- The message schedule `SIGMA[0..9][0..15]` (R106; log 17). -/
def sigma : Vector (Vector (Fin 16) 16) 10 :=
  #v[#v[0, 1, 2, 3, 4, 5, 6, 7, 8, 9, 10, 11, 12, 13, 14, 15],
     #v[14, 10, 4, 8, 9, 15, 13, 6, 1, 12, 0, 2, 11, 7, 5, 3],
     #v[11, 8, 12, 0, 5, 2, 15, 13, 10, 14, 3, 6, 7, 1, 9, 4],
     #v[7, 9, 3, 1, 13, 12, 11, 14, 2, 6, 5, 10, 4, 0, 15, 8],
     #v[9, 0, 5, 7, 2, 4, 10, 15, 14, 1, 11, 12, 6, 8, 3, 13],
     #v[2, 12, 6, 10, 0, 11, 8, 3, 4, 13, 7, 5, 15, 14, 1, 9],
     #v[12, 5, 1, 15, 14, 13, 4, 10, 0, 7, 6, 3, 9, 2, 8, 11],
     #v[13, 11, 7, 14, 12, 1, 3, 9, 5, 0, 15, 4, 8, 6, 2, 10],
     #v[6, 15, 14, 9, 11, 3, 0, 8, 12, 2, 13, 7, 1, 4, 10, 5],
     #v[10, 2, 8, 4, 7, 6, 1, 5, 15, 11, 9, 14, 3, 12, 13, 0]]

/-- The row of round `r`, `SIGMA[r mod 10]` (R107). -/
def sigmaRow (r : Nat) : Vector (Fin 16) 16 := sigma[r % 10]'(Nat.mod_lt r (by decide))

/-- The mixing function G: eight steps in strict sequence, each reading what the steps before it wrote (R109, with the
seventh step of 90_conflicts.md C1; rotation amounts R108). -/
def mixG (a b c d : Fin 16) (x y : Word) (v : Work) : Work :=
  let v := v.set a (add64x3 v[a] v[b] x)
  let v := v.set d (rotr64 (xor64 v[d] v[a]) 32)
  let v := v.set c (add64 v[c] v[d])
  let v := v.set b (rotr64 (xor64 v[b] v[c]) 24)
  let v := v.set a (add64x3 v[a] v[b] y)
  let v := v.set d (rotr64 (xor64 v[d] v[a]) 16)
  let v := v.set c (add64 v[c] v[d])
  v.set b (rotr64 (xor64 v[b] v[c]) 63)

/-- The column pass of the round whose schedule row is `s` (R111). -/
def columnPass (m : Block) (s : Vector (Fin 16) 16) (v : Work) : Work :=
  let v := mixG 0 4 8 12 m[s[0]] m[s[1]] v
  let v := mixG 1 5 9 13 m[s[2]] m[s[3]] v
  let v := mixG 2 6 10 14 m[s[4]] m[s[5]] v
  mixG 3 7 11 15 m[s[6]] m[s[7]] v

/-- The diagonal pass (R112). -/
def diagonalPass (m : Block) (s : Vector (Fin 16) 16) (v : Work) : Work :=
  let v := mixG 0 5 10 15 m[s[8]] m[s[9]] v
  let v := mixG 1 6 11 12 m[s[10]] m[s[11]] v
  let v := mixG 2 7 8 13 m[s[12]] m[s[13]] v
  mixG 3 4 9 14 m[s[14]] m[s[15]] v

/-- `ROUND(r)`: the column pass, then the diagonal pass (R113). -/
def mixRound (m : Block) (r : Nat) (v : Work) : Work := diagonalPass m (sigmaRow r) (columnPass m (sigmaRow r) v)

/-- Rounds `0, 1, …, n-1` in order (R117). -/
def rounds (m : Block) : Nat → Work → Work
  | 0, v => v
  | n + 1, v => mixRound m n (rounds m n v)

/-- Step 1, the work-vector load: all eight words of `h`, then all eight of `IV` (R114; 90_conflicts.md C2). -/
def loadWork (h : Chain) : Work := h ++ iv

/-- Step 2, counter injection (R115). -/
def injectCounter (t : Counter) (v : Work) : Work :=
  let v := v.set 12 (xor64 v[12] (t.extractLsb' 0 64))
  v.set 13 (xor64 v[13] (t.extractLsb' 64 64))

/-- Step 3, finalization: `V[14]` is inverted when `f = 1`; `V[15]` never is (R116). -/
def injectFinal (f : Bool) (v : Work) : Work := if f then v.set 14 (not64 v[14]) else v

/-- Step 6, the feed-forward fold over all eight words, with the `h` that entered the call (R118, R207). -/
def foldWork (h : Chain) (v : Work) : Chain := Vector.ofFn fun i : Fin 8 => xor64 (xor64 h[i.val] v[i.val]) v[i.val + 8]

/-- The compression function F: exactly twelve rounds (R117, R120). Its work vector exists only here (R29). -/
def compress (h : Chain) (m : Block) (t : Counter) (f : Bool) : Chain :=
  foldWork h (rounds m 12 (injectFinal f (injectCounter t (loadWork h))))

/-- `ENG_H_IN`'s words: `h[i]` is bits `64i+63 : 64i` (R82). -/
def busToChain (bus : BitVec 512) : Chain := Vector.ofFn fun i : Fin 8 => bus.extractLsb' (64 * i.val) 64

/-- `ENG_M_IN`'s words: `m[i]` is bits `64i+63 : 64i` (R82). -/
def busToBlock (bus : BitVec 1024) : Block := Vector.ofFn fun i : Fin 16 => bus.extractLsb' (64 * i.val) 64

/-- `ENG_H_OUT`: word `i` at bits `64i+63 : 64i` (R82). -/
def chainToBus (h : Chain) : BitVec 512 := h[7] ++ h[6] ++ h[5] ++ h[4] ++ h[3] ++ h[2] ++ h[1] ++ h[0]

/-- The engine behind its five internal buses (R82). `ENG_T_IN` holds the counter, low word in its low half. -/
def enginePort (hIn : BitVec 512) (mIn : BitVec 1024) (tIn : BitVec 128) (fIn : BitVec 1) : BitVec 512 :=
  chainToBus (compress (busToChain hIn) (busToBlock mIn) tIn (fIn == 1))

end Sys2Proof.Machine
end

