-- ==== Sys2Proof/Config.lean ====
section
/-! DEFINITION. What an implementation fixes. Every parameter of spec/00_scope.md rule R7 has one value and stands as a
literal where a rule uses it; the one OPEN parameter is `MMIO_BASE`. -/

namespace Sys2Proof

/-- `MMIO_BASE`, where a system places the command interface: OPEN, and read by no rule (R8, R59, 92_eei_decisions.md D14).
It has no body, so nothing can be proved of its value (log 8). -/
opaque Config.mmioBase : Nat

end Sys2Proof
end

