-- ==== Sys2Proof/Syntax.lean ====
section
/-! DEFINITION. The command frames as syntax: one constructor for each row of spec/opcode_table.json. -/

namespace Sys2Proof

/-- The four fields of a header word (30_encoding.md R71). Only an illegal header is kept as fields; the legal commands
carry their operands. -/
structure Header where
  /-- `[3:0]`, the command selector (R72). -/
  op : BitVec 4
  /-- `[10:4]`, the digest length in bytes. -/
  nnf : BitVec 7
  /-- `[17:11]`, the key length in bytes. -/
  kkf : BitVec 7
  /-- `[31:18]`, reserved. -/
  rsv : BitVec 14
  deriving DecidableEq, Repr

/-- A command, its operands decoded (R83). The key length `kk` is the length of `key` and `LEN` is the length of `data`
(log 18): `WellFormed.lean` says which lengths a frame can carry. -/
inductive Instr where
  /-- `INIT nn[, key]` (R73, R146). -/
  | init (nn : BitVec 7) (key : List Byte)
  /-- `UPDATE data` (R74, R147). -/
  | update (data : List Byte)
  /-- `FINALIZE` (R75, R148). -/
  | finalize
  /-- `HASH nn, [key,] data` (R76, R149). -/
  | hash (nn : BitVec 7) (key : List Byte) (data : List Byte)
  /-- `<reserved>`: a frame with an illegal header and the payload bytes that are consumed with it (R77, R78, R150). -/
  | reserved (header : Header) (payload : List Byte)
  deriving DecidableEq, Repr

/-- Where a byte string ends inside a frame (R77): the decoder's three reasons to reject one. -/
inductive Truncation where
  /-- Fewer than the four header bytes. -/
  | header
  /-- The header of a frame with data, without all of the bytes up to the end of `LEN`. -/
  | length
  /-- A frame whose length is known, without all of its bytes. -/
  | payload
  deriving DecidableEq, Repr

end Sys2Proof
end

