-- ==== Sys2Proof/Machine/Operands.lean ====
section
/-! DEFINITION. Operand forms: what a header makes illegal, how long a payload is, and the one constant that operands
make (spec/30_encoding.md rules R77 to R79, R83; 41_session_commands.md rule R141). -/

namespace Sys2Proof

/-- An illegal header: a reserved `OP`, a nonzero `RSV`, or `NNF` or `KKF` on UPDATE or FINALIZE (R78). -/
def Header.illegal (h : Header) : Bool :=
  !(h.op == 1 || h.op == 2 || h.op == 3 || h.op == 4) || h.rsv != 0
    || ((h.op == 2 || h.op == 3) && (h.nnf != 0 || h.kkf != 0))

/-- Whether `p` is a whole payload after header `h` (R77). It depends on `OP`, `KKF` and `LEN` only. -/
def Header.payloadFits (h : Header) (p : List Byte) : Bool :=
  if h.op = 1 then p.length == h.kkf.toNat
  else if h.op = 2 then decide (8 ≤ p.length) && p.length == 8 + Machine.leValue (p.take 8)
  else if h.op = 4 then
    decide (h.kkf.toNat + 8 ≤ p.length)
      && p.length == h.kkf.toNat + 8 + Machine.leValue ((p.drop h.kkf.toNat).take 8)
  else p.length == 0

namespace Machine

/-- `kk`, the key length as the 7-bit register `KK` holds it (R26, R83). -/
def keyLength (key : List Byte) : BitVec 7 := BitVec.ofNat 7 key.length

/-- The key zero-padded to 128 bytes (R142; glossary, key block). -/
def paddedKey (key : List Byte) : List Byte := key ++ List.replicate (128 - key.length) 0

/-- The parameter word `P0 = nn | kk << 8 | 1 << 16 | 1 << 24` (R141). -/
def parameterWord (nn kk : BitVec 7) : Word :=
  nn.setWidth 64 ||| (kk.setWidth 64 <<< 8) ||| ((1 : Word) <<< 16) ||| ((1 : Word) <<< 24)

end Machine
end Sys2Proof
end

