-- ==== Sys2Proof/WellFormed.lean ====
section
/-! DEFINITION. Which terms a command frame can carry (spec/30_encoding.md rules R71 to R79). -/

namespace Sys2Proof

/-- A key fits the 7-bit field `KKF` (R71, R73). -/
def keyFits (key : List Byte) : Bool := decide (key.length < 2 ^ 7)

/-- A data sequence fits the 64-bit field `LEN` (R74; 92_eei_decisions.md D18). -/
def dataFits (data : List Byte) : Bool := decide (data.length < 2 ^ 64)

/-- `i` is the meaning of some frame. Out-of-range digest and key lengths are well formed (R79). -/
def Instr.wf : Instr → Bool
  | .init _ key => keyFits key
  | .update data => dataFits data
  | .finalize => true
  | .hash _ key data => keyFits key && dataFits data
  | .reserved h p => h.illegal && h.payloadFits p

end Sys2Proof
end

