-- ==== Sys2Proof/Decode.lean ====
section
/-! DEFINITION. The decoder, total on byte strings, and the encoder (spec/30_encoding.md rules R70 to R79). Both are
written from R71's field table; the round trip is stated in Certificates/Slice0/Obligations.lean. -/

namespace Sys2Proof

/-- The fields of a header word (R71). -/
def Header.ofWord (w : BitVec 32) : Header :=
  { op := w.extractLsb' 0 4, nnf := w.extractLsb' 4 7, kkf := w.extractLsb' 11 7, rsv := w.extractLsb' 18 14 }

/-- The header word of four fields (R71, `{RSV, KKF, NNF, OP}`). -/
def Header.toWord (h : Header) : BitVec 32 := h.rsv ++ h.kkf ++ h.nnf ++ h.op

/-- The header of a frame: its first four bytes, little-endian (R70). -/
def Header.ofBytes (bs : List Byte) : Header := Header.ofWord (BitVec.ofNat 32 (Machine.leValue (bs.take 4)))

/-- The four header bytes (R70). -/
def Header.toBytes (h : Header) : List Byte := Machine.leBytes 4 h.toWord.toNat

/-- The length of the frame at the front of `bs`, from bytes already read (R77), or where `bs` ends too early to tell. -/
def frameLength (bs : List Byte) : Except Truncation Nat :=
  if bs.length < 4 then .error .header
  else
    let h := Header.ofBytes bs
    let kk := h.kkf.toNat
    if h.op = 1 then .ok (4 + kk)
    else if h.op = 2 then
      if bs.length < 12 then .error .length else .ok (12 + Machine.leValue ((bs.drop 4).take 8))
    else if h.op = 4 then
      if bs.length < 4 + kk + 8 then .error .length
      else .ok (4 + kk + 8 + Machine.leValue ((bs.drop (4 + kk)).take 8))
    else .ok 4

/-- The command of one whole frame, given as its header and its payload (R72 to R76, R78, R83). -/
def command (h : Header) (payload : List Byte) : Instr :=
  if h.illegal then .reserved h payload
  else if h.op = 1 then .init h.nnf payload
  else if h.op = 2 then .update (payload.drop 8)
  else if h.op = 3 then .finalize
  else .hash h.nnf (payload.take h.kkf.toNat) (payload.drop (h.kkf.toNat + 8))

/-- The command at the front of the stream and the bytes after its frame. A byte string that ends inside a frame is
refused, by the name of what is missing (R77; 92_eei_decisions.md D22). -/
def decode (bs : List Byte) : Except Truncation (Instr × List Byte) :=
  match frameLength bs with
  | .error e => .error e
  | .ok n =>
    if bs.length < n then .error .payload
    else .ok (command (Header.ofBytes bs) ((bs.take n).drop 4), bs.drop n)

/-- The 8-byte little-endian `LEN` of a data sequence (R74). -/
def lengthField (data : List Byte) : List Byte := Machine.leBytes 8 data.length

/-- The frame of a command (R73 to R76; R84 writes the same map as assembler lines). -/
def encode : Instr → List Byte
  | .init nn key => Header.toBytes ⟨1, nn, Machine.keyLength key, 0⟩ ++ key
  | .update data => Header.toBytes ⟨2, 0, 0, 0⟩ ++ lengthField data ++ data
  | .finalize => Header.toBytes ⟨3, 0, 0, 0⟩
  | .hash nn key data => Header.toBytes ⟨4, nn, Machine.keyLength key, 0⟩ ++ key ++ lengthField data ++ data
  | .reserved h payload => h.toBytes ++ payload

/-- The length of the frame whose bits, numbered from the header word's bit 0, are `v` (R77, on R71's bit positions). -/
def tableLength (v : Nat) : Nat :=
  let kk := (v >>> 11) % 2 ^ 7
  match v % 2 ^ 4 with
  | 1 => 4 + kk
  | 2 => 12 + (v >>> 32) % 2 ^ 64
  | 4 => 4 + kk + 8 + (v >>> (8 * (4 + kk))) % 2 ^ 64
  | _ => 4

/-- The frame of an instruction whose table bits are `w`, every bit from `nbits` on being 0. Bit 0 is the least
significant bit of the header word, and the header word is stored little-endian (R70). -/
def tableFrame (nbits w : Nat) : List Byte :=
  let v := w % 2 ^ nbits
  Machine.leBytes (tableLength v) v

/-- The command the decoder reads from a table word. -/
def decodeTableWord (nbits w : Nat) : Option Instr :=
  match decode (tableFrame nbits w) with
  | .ok (i, _) => some i
  | .error _ => none

end Sys2Proof
end

