-- ==== Sys2Proof/Machine/State.lean ====
section
/-! DEFINITION. The state of the core: every register of spec/10_state.md rule R21, the two byte streams of
spec/20_memory.md rule R50 and the reset signal of spec/70_reset_and_hazards.md rule R200. -/

namespace Sys2Proof.Machine

/-- `PHASE` (R27). The encoding 3 is unreachable and is left out of the type (93_implementation_defined.md U9, log 7).
`IDLE` is 0, `OPEN` is 1 (here `opened`), `FINALIZED` is 2: `Phase.code` in Machine/Flags.lean. -/
inductive Phase where
  | idle
  | opened
  | finalized
  deriving DecidableEq, Repr

/-- The status byte of a response (30_encoding.md R81); its codes are `Status.code` in Machine/Flags.lean. -/
inductive Status where
  | ok
  | configError
  | sessionClosed
  | illegalCommand
  deriving DecidableEq, Repr

/-- One response frame: a status byte and its payload (R80). -/
structure Response where
  status : Status
  payload : List Byte
  deriving DecidableEq, Repr

/-- A byte memory as (address, byte) pairs: addresses strictly rising, no entry equal to what an unlisted address reads
as. `Memory.wf` in Machine/Ops.lean states the form. -/
abbrev Memory := List Host.Cell

/-- Why the core stops for good. -/
inductive Fault where
  /-- `FAULT = 1`: an UPDATE has exceeded `2^128 - 1` bytes, and no command has a step until reset (R31, R140, R186).
  Raised by `step` and by every command's meaning while `FAULT = 1`. Safe: the spec gives the core no run past it. -/
  | counterOverflow
  deriving DecidableEq, Repr

/-- Why the core takes no step. -/
inductive Refusal where
  /-- An instruction that has no meaning yet; no arm of `exec` is left so. Safe. -/
  | notModelled (mnemonic : String)
  /-- The command stream ends inside a frame, which is no command (R77, 92_eei_decisions.md D22, log 4).
  Raised by `step`. Safe: the spec gives no run that goes on. -/
  | incompleteFrame (missing : Truncation)
  deriving DecidableEq, Repr

/-- The whole state. Between commands nothing else exists: the engine's work vector lives inside one call of F (R29). -/
structure State where
  /-- `H[0..7]`, the chaining state (R22). -/
  h : Chain
  /-- `T`, the byte counter (R23). -/
  t : Counter
  /-- `BUF[0..127]`, the block buffer (R24). -/
  buf : Memory
  /-- `BLEN`, how many bytes of `BUF` are pending: 0..128 (R25; log 7). -/
  blen : Fin 129
  /-- `NN`, the digest length in bytes (R26). -/
  nn : BitVec 7
  /-- `KK`, the key length in bytes (R26). -/
  kk : BitVec 7
  /-- `PHASE` (R27). -/
  phase : Phase
  /-- `FAULT`, the sticky fault bit (R31). -/
  fault : Bool
  /-- The command stream: bytes the host has sent and the core has not taken (R50, R70; log 1). -/
  commands : List Byte
  /-- The response stream: the response frames sent, oldest first (R50, R80, R211; log 2). -/
  responses : List Response
  /-- The reset signal: a reset event the core has not taken (R200; log 5). -/
  rst : Bool
  deriving DecidableEq, Repr

/-- The core right after reset (R37, R200): every register at the value of R37's table, and nothing in the streams. -/
def State.reset : State :=
  { h := Vector.replicate 8 0, t := 0, buf := [], blen := 0, nn := 0, kk := 0, phase := .idle, fault := false,
    commands := [], responses := [], rst := false }

end Sys2Proof.Machine
end

