-- ==== Sys2Proof/Machine/Ops.lean ====
section
/-! DEFINITION. The named operations over the block buffer, the streams and the registers that every command shares:
memory access (spec/20_memory.md R52), answering (R11, R80), errors and the fault (60_exceptions.md R183, R186), reset
(70_reset_and_hazards.md R200) and taking the next command (R140). The core has no trap entry and no trap return
(R187): an error is an answer, a fault is the bit `FAULT`. -/

namespace Sys2Proof.Machine

/-- What an address that memory does not list reads as: the reset content of `BUF` (R37). -/
def Memory.unlisted : Byte := 0

/-- The canonical form: addresses strictly rising, only addresses of `BUF`, no entry that reads as an unlisted one. -/
abbrev Memory.wf (m : Memory) : Prop :=
  m.Pairwise (fun x y => x.1 < y.1) ∧ ∀ c ∈ m, c.1 < 128 ∧ c.2 ≠ Memory.unlisted

/-- `BUF[a]` (R11). -/
def Memory.read : Memory → Nat → Byte
  | [], _ => Memory.unlisted
  | (k, b) :: m, a => if k = a then b else Memory.read m a

/-- Memory without an entry for address `a`. -/
def Memory.erase (m : Memory) (a : Nat) : Memory := m.filter fun c => c.1 != a

/-- An entry put before the first higher address. -/
def Memory.insert : Memory → Nat → Byte → Memory
  | [], a, v => [(a, v)]
  | (k, b) :: m, a, v => if a < k then (a, v) :: (k, b) :: m else (k, b) :: Memory.insert m a v

/-- `BUF[a] <- v` (R11), keeping the canonical form. -/
def Memory.write (m : Memory) (a : Nat) (v : Byte) : Memory :=
  if v = Memory.unlisted then m.erase a else (m.erase a).insert a v

/-- The bytes of `bs` stored one after another from address `a` on. -/
def Memory.writeBytes : Memory → Nat → List Byte → Memory
  | m, _, [] => m
  | m, a, b :: bs => Memory.writeBytes (m.write a b) (a + 1) bs

/-- `MemRead(addr, n)`, the little-endian value of `n` bytes of `BUF` (R52). DESIGN CHOICE (log 20): none outside `BUF`, where
R52 gives no meaning. -/
def Memory.readLE (m : Memory) (addr n : Nat) : Option Nat :=
  if addr + n ≤ 128 then some (leValue ((List.range n).map fun j => m.read (addr + j))) else none

/-- `MemWrite(addr, n, v)`, storing the `n` low bytes of `v` in `BUF` (R52). DESIGN CHOICE (log 20): none outside `BUF`. -/
def Memory.writeLE (m : Memory) (addr n v : Nat) : Option Memory :=
  if addr + n ≤ 128 then some (m.writeBytes addr (leBytes n v)) else none

/-- `T_LO` (R21). -/
def State.tLo (s : State) : Word := s.t.extractLsb' 0 64

/-- `T_HI` (R21). -/
def State.tHi (s : State) : Word := s.t.extractLsb' 64 64

/-- The state after a response frame has been sent (R80). -/
def State.answered (s : State) (status : Status) (payload : List Byte) : State :=
  { s with responses := s.responses ++ [⟨status, payload⟩] }

/-- `respond(status, payload)` ends a command (R11, R80). -/
def respond (status : Status) (payload : List Byte) (s : State) : Host.Outcome State Fault Refusal :=
  .next (s.answered status payload)

/-- `raise <Error>`: answer the error with every register left as it was (R11, R183). -/
def raise (error : Status) (s : State) : Host.Outcome State Fault Refusal := respond error [] s

/-- `fault CounterOverflow`: set `FAULT`, write no other register, send no response (R11, R186; log 6). -/
def faultOverflow (s : State) : Host.Outcome State Fault Refusal := .next { s with fault := true }

/-- While `FAULT = 1` the core takes no step (R31, R140 item 1, R185 item 1). -/
def inService (s : State) (outcome : Host.Outcome State Fault Refusal) : Host.Outcome State Fault Refusal :=
  if s.fault then .fault .counterOverflow else outcome

/-- The reset event: every register takes its value of R37, the command in progress is abandoned, and what the host has
already received stays received (R200, R210; log 5). -/
def resetEvent (s : State) : State := { State.reset with responses := s.responses }

/-- The host sends bytes (R70, R210). -/
def State.hostSend (s : State) (bytes : List Byte) : State := { s with commands := s.commands ++ bytes }

/-- The system asserts reset (R200, R210). -/
def State.hostReset (s : State) : State := { s with rst := true }

/-- What the core does next: run a command on a state from which its frame has been taken, or something else. -/
inductive Turn where
  | run (i : Instr) (s : State)
  | other (o : Host.Outcome State Fault Refusal)

/-- The front of every step. A reset event comes first, since it stands outside the command stream and is all that clears
`FAULT` (R31, R200). Then `FAULT`, then decoding (R140, R185). With no byte waiting the core is idle and keeps its state
(R193; log 3). The frame of a command is consumed whole (R77, R78). -/
def turn (s : State) : Turn :=
  if s.rst then .other (.next (resetEvent s))
  else if s.fault then .other (.fault .counterOverflow)
  else
    match s.commands with
    | [] => .other (.next s)
    | b :: bs =>
      match decode (b :: bs) with
      | .error missing => .other (.refused (.incompleteFrame missing))
      | .ok (i, rest) => .run i { s with commands := rest }

end Sys2Proof.Machine
end

