-- ==== Sys2Proof/Machine/Flags.lean ====
section
/-! DEFINITION. The codes of the status state, and the conditions a command tests. The core has no condition codes
(spec/10_state.md R34): its status state is `PHASE` and `FAULT`, and its only flag is the engine's argument `f` (R30). -/

namespace Sys2Proof.Machine

/-- The 2-bit encoding of `PHASE` (R27). -/
def Phase.code : Phase → BitVec 2
  | .idle => 0
  | .opened => 1
  | .finalized => 2

/-- The status byte (R81). -/
def Status.code : Status → Byte
  | .ok => 0x00
  | .configError => 0x01
  | .sessionClosed => 0x02
  | .illegalCommand => 0x03

/-- A response frame as the host receives it: the status byte, then the payload (R80). -/
def Response.bytes (r : Response) : List Byte := r.status.code :: r.payload

/-- ConfigurationError's condition: `nn < 1`, `nn > 64` or `kk > 64` (R181). -/
def configIllegal (nn : BitVec 7) (key : List Byte) : Bool :=
  decide (nn.toNat < 1) || decide (64 < nn.toNat) || decide (64 < key.length)

/-- SessionClosedError's condition: `PHASE ≠ OPEN` (R182). -/
def sessionClosed (s : State) : Bool := s.phase != .opened

/-- CounterOverflow's condition: `T + BLEN + LEN > 2^128 - 1` (R186). The sum is exact. -/
def counterExceeded (s : State) (len : Nat) : Bool := decide (2 ^ 128 - 1 < s.t.toNat + s.blen.val + len)

end Sys2Proof.Machine
end

