-- ==== Sys2Proof/Machine/Session.lean ====
section
/-! DEFINITION. The session's helper operations (spec/41_session_commands.md rules R141 to R145), used only inside
commands. -/

namespace Sys2Proof.Machine

/-- The chaining state `INIT_STATE(nn, kk)` loads: `IV` with the parameter word in word 0 (R141). -/
def initialChain (nn kk : BitVec 7) : Chain := iv.set 0 (xor64 iv[0] (parameterWord nn kk))

/-- `INIT_STATE(nn, kk)` (R141). -/
def initState (nn kk : BitVec 7) (s : State) : State := { s with h := initialChain nn kk }

/-- `LOAD_KEY(key, kk)`: the padded key block becomes the first 128 pending bytes and is not compressed here
(R142; 90_conflicts.md C3). -/
def loadKey (key : List Byte) (s : State) : State :=
  if 0 < key.length then { s with t := 0, buf := s.buf.writeBytes 0 (paddedKey key), blen := 128 }
  else { s with t := 0, blen := 0 }

/-- What INIT and HASH do once the ranges are checked (R146, R149). -/
def openSession (nn : BitVec 7) (key : List Byte) (s : State) : State :=
  { loadKey key { initState nn (keyLength key) s with nn := nn, kk := keyLength key } with phase := .opened }

/-- `byte(k)` of R144: a pending byte, or zero past the pending ones. Stale bytes of `BUF` are never used (R205). -/
def pendingByte (s : State) (k : Nat) : Byte := if k < s.blen.val then s.buf.read k else 0

/-- `FORM_BLOCK()` (R144). -/
def formBlock (s : State) : Block := blockOf (pendingByte s)

/-- The buffered block is not the last one: count its bytes, then compress it with `f = 0` (R143, R208). -/
def compressInterior (s : State) : State :=
  let t := s.t + 128
  { s with t := t, h := compress s.h (formBlock s) t false, blen := 0 }

/-- `BUF[n] <- b; BLEN <- n + 1` (R143). -/
def bufferByte (n : Fin 128) (b : Byte) (s : State) : State := { s with buf := s.buf.write n.val b, blen := n.succ }

/-- `ABSORB(b)`: a full buffer is compressed only now that a further byte has arrived (R143, R204). -/
def absorb (s : State) (b : Byte) : State :=
  if room : s.blen.val < 128 then bufferByte ⟨s.blen.val, room⟩ b s else bufferByte 0 b (compressInterior s)

/-- `ABSORB` on each byte in order (R60, R147). -/
def absorbAll (s : State) (data : List Byte) : State := data.foldl absorb s

/-- The last compression: the counter takes the remaining byte count, then F runs with `f = 1` (R148, R208). `BUF` and
`BLEN` are not written. -/
def compressLast (s : State) : State :=
  let t := s.t + BitVec.ofNat 128 s.blen.val
  { s with t := t, h := compress s.h (formBlock s) t true, phase := .finalized }

/-- `SERIALIZE()`: the first `NN` bytes of the little-endian chaining state (R145, R54). -/
def serialize (s : State) : List Byte := (chainBytes s.h).take s.nn.toNat

end Sys2Proof.Machine
end

