-- ==== Sys2Proof/Machine/Commands.lean ====
section
/-! DEFINITION. The meaning of every command (spec/41_session_commands.md rules R146 to R150), in the order of checks that
spec/60_exceptions.md rule R185 gives. An illegal header is told apart by the decoder, before any of these runs. -/

namespace Sys2Proof.Machine

/-- `INIT nn[, key]`, accepted in every phase (R146). -/
def execInit (nn : BitVec 7) (key : List Byte) (s : State) : Host.Outcome State Fault Refusal :=
  inService s <|
    if configIllegal nn key then raise .configError s else respond .ok [] (openSession nn key s)

/-- `UPDATE data` (R147): the phase, then the counter's range, before any byte is absorbed. -/
def execUpdate (data : List Byte) (s : State) : Host.Outcome State Fault Refusal :=
  inService s <|
    if sessionClosed s then raise .sessionClosed s
    else if counterExceeded s data.length then faultOverflow s
    else respond .ok [] (absorbAll s data)

/-- `FINALIZE` (R148): the digest is serialized from the state the last compression left. -/
def execFinalize (s : State) : Host.Outcome State Fault Refusal :=
  inService s <|
    if sessionClosed s then raise .sessionClosed s
    else respond .ok (serialize (compressLast s)) (compressLast s)

/-- `HASH nn, [key,] data` (R149): INIT, UPDATE and FINALIZE in one command with one response. -/
def execHash (nn : BitVec 7) (key data : List Byte) (s : State) : Host.Outcome State Fault Refusal :=
  inService s <|
    if configIllegal nn key then raise .configError s
    else
      let last := compressLast (absorbAll (openSession nn key s) data)
      respond .ok (serialize last) last

/-- `<reserved>` (R150): answered in every phase, nothing written; its operands are not used. -/
def execReserved (_header : Header) (_payload : List Byte) (s : State) : Host.Outcome State Fault Refusal :=
  inService s (raise .illegalCommand s)

end Sys2Proof.Machine
end

