-- ==== Sys2Proof/Machine/Dispatch.lean ====
section
/-! DEFINITION. One arm for each command. -/

namespace Sys2Proof.Machine

def exec (i : Instr) (s : State) : Host.Outcome State Fault Refusal :=
  match i with
  | .init nn key => Sys2Proof.Machine.execInit nn key s
  | .update data => Sys2Proof.Machine.execUpdate data s
  | .finalize => Sys2Proof.Machine.execFinalize s
  | .hash nn key data => Sys2Proof.Machine.execHash nn key data s
  | .reserved header payload => Sys2Proof.Machine.execReserved header payload s

end Sys2Proof.Machine
end

