-- ==== Sys2Proof/Machine/Step.lean ====
section
/-! DEFINITION. One step of the core: one whole command (spec/20_memory.md R61, 41_session_commands.md R140). -/

namespace Sys2Proof.Machine

/-- `turn` takes the next command from the stream; its meaning runs on the state without the frame. -/
def step (s : State) : Host.Outcome State Fault Refusal :=
  match turn s with
  | .run i s' => exec i s'
  | .other o => o

/-- The frame of a table word put where `step` takes its next command, the front of the command stream, with no reset
event waiting before it (log 15). `FAULT` stays as it is. -/
def State.withFetchWord (s : State) (nbits w : Nat) : State :=
  { s with commands := tableFrame nbits w ++ s.commands, rst := false }

end Sys2Proof.Machine
end

