-- ==== Sys2Proof/Machine/Assembler.lean ====
section
/-! DEFINITION. The assembler lines test programs are written in, one command a line, and the frames they stand for
(spec/30_encoding.md R84). The syntax has no pseudo-instructions; nothing of the machine uses this file. -/

namespace Sys2Proof.Machine

/-- A data operand of a line (R84). -/
inductive LineData where
  /-- `"<ascii>"`: the ASCII bytes of the text, with no terminator. -/
  | ascii (text : String)
  /-- `<hex>`: a byte string, its first byte leftmost. -/
  | hex (bytes : List Byte)
  /-- `pat(n)`. -/
  | pat (n : Nat)
  deriving DecidableEq, Repr

/-- A line (R84). A line without `key=` has the empty key. -/
inductive Line where
  | init (nn : BitVec 7) (key : List Byte)
  | update (data : LineData)
  | finalize
  | hash (nn : BitVec 7) (key : List Byte) (data : LineData)
  /-- `.frame <hex>`: a raw frame, given byte by byte. -/
  | frame (bytes : List Byte)
  deriving DecidableEq, Repr

/-- `pat(n)`: the `n` bytes `b_j = j mod 251` (R84). -/
def patBytes (n : Nat) : List Byte := (List.range n).map fun j => BitVec.ofNat 8 (j % 251)

/-- The bytes of a data operand (R84). -/
def LineData.bytes : LineData → List Byte
  | .ascii text => text.toList.map fun c => BitVec.ofNat 8 c.toNat
  | .hex bytes => bytes
  | .pat n => patBytes n

/-- The frame of a line (R84). -/
def assembleLine : Line → List Byte
  | .init nn key => encode (.init nn key)
  | .update data => encode (.update data.bytes)
  | .finalize => encode .finalize
  | .hash nn key data => encode (.hash nn key data.bytes)
  | .frame bytes => bytes

/-- The frames of a test program, in order (R84). -/
def assemble (lines : List Line) : List Byte := lines.flatMap assembleLine

end Sys2Proof.Machine
end

