-- ==== Sys2Proof/Safety.lean ====
section
/-! DEFINITION. What the claims speak of: the invariant of a session (spec/10_state.md R35), what the host can tell of a
state (R37, 70_reset_and_hazards.md R205, R211), and a session's digest as a chain over the blocks of its byte stream
(41_session_commands.md R151, R152). Nothing here is used by the machine. -/

namespace Sys2Proof.Machine

/-- `k` steps of the core, stopping at the first fault or refusal: `Host.Core.run` at this machine's own types
(`run_eq_host_run` in Laws/Step.lean). A run answers every frame of the stream in order (R211). -/
def run : Nat → State → Host.Outcome State Fault Refusal
  | 0, s => .next s
  | k + 1, s =>
    match step s with
    | .next t => run k t
    | .fault r => .fault r
    | .refused r => .refused r

/-- The configuration registers hold legal values (R21, R26): `NN` at most 64, at least 1 once a session exists, and `KK`
at most 64. -/
abbrev ConfigLegal (s : State) : Prop :=
  s.nn.toNat ≤ 64 ∧ s.kk.toNat ≤ 64 ∧ (s.phase ≠ .idle → 1 ≤ s.nn.toNat)

/-- Items 3 and 4 of R35, and the bound R147 keeps: `T` is a multiple of 128, a block has been compressed only when a later
byte is pending, and the bytes absorbed stay countable. -/
abbrev CounterLegal (s : State) : Prop :=
  s.t.toNat % 128 = 0 ∧ (0 < s.t.toNat → 1 ≤ s.blen.val) ∧ s.t.toNat + s.blen.val < 2 ^ 128

/-- The invariant every step keeps (R35 items 1 to 4; the canonical form of `BUF`). Item 2 is the type of `blen`. -/
abbrev State.Inv (s : State) : Prop :=
  s.buf.wf ∧ ConfigLegal s ∧ (s.phase = .opened → CounterLegal s)

/-- The registers the core may read again: all of the session while it is open, with the pending bytes of `BUF` only, and
no data register otherwise (R37, R144, R205). -/
def SameSession (s t : State) : Prop :=
  s.phase = .opened →
    s.h = t.h ∧ s.t = t.t ∧ s.blen = t.blen ∧ s.nn = t.nn ∧ ∀ k < s.blen.val, s.buf.read k = t.buf.read k

/-- What is observed of a run: the response frames in order, with the final `PHASE` and `FAULT` (R211). -/
structure Observation where
  responses : List Response
  phase : Phase
  fault : Bool
  deriving DecidableEq, Repr

/-- The observation of a run that ended in `s` (R211). -/
def State.observation (s : State) : Observation := ⟨s.responses, s.phase, s.fault⟩

/-- Two states the host cannot tell apart now, with the registers that could tell them apart later equal (R37, R211). -/
def SameView (s t : State) : Prop :=
  s.observation = t.observation ∧ s.commands = t.commands ∧ s.rst = t.rst ∧ SameSession s t

/-- Two outcomes the host cannot tell apart. -/
def SameOutcome : Host.Outcome State Fault Refusal → Host.Outcome State Fault Refusal → Prop
  | .next s, .next t => SameView s t
  | .fault a, .fault b => a = b
  | .refused a, .refused b => a = b
  | _, _ => False

/-- The pending bytes of `BUF`, the oldest first (R24). -/
def pendingBytes (s : State) : List Byte := (List.range s.blen.val).map s.buf.read

/-- What INIT puts at the front of a session's byte stream: the padded key block, or nothing (R142, R151). -/
def keyStream (key : List Byte) : List Byte := if key = [] then [] else paddedKey key

/-- Block `k` of a byte stream: bytes `128k .. 128k+127`, with zeros past its end (R151, R152). -/
def streamBlock (stream : List Byte) (k : Nat) : Block := blockOf fun j => stream.getD (128 * k + j) 0

/-- The chaining state after blocks `0 .. n-1` of `stream` have been compressed as interior blocks, block `k` with counter
`base + 128(k+1)` and `f = 0` (R151, R152). -/
def interiorChain (start : Chain) (base : Counter) (stream : List Byte) : Nat → Chain
  | 0 => start
  | k + 1 =>
    compress (interiorChain start base stream k) (streamBlock stream k) (base + BitVec.ofNat 128 (128 * (k + 1))) false

/-- How often a session that absorbs `a` bytes calls the engine: `max(1, ceil(a / 128))` (R152). -/
def engineCalls (a : Nat) : Nat := max 1 ((a + 127) / 128)

/-- The chaining state at the end of a session that absorbs `stream`: every block but the last compressed with `f = 0`,
the last, zero-padded, with the total length and `f = 1` (R152). -/
def sessionChain (start : Chain) (stream : List Byte) : Chain :=
  let last := engineCalls stream.length - 1
  compress (interiorChain start 0 stream last) (streamBlock stream last) (BitVec.ofNat 128 stream.length) true

end Sys2Proof.Machine
end

