-- ==== Sys2Proof/Certificates/Slice0/Obligations.lean ====
section
/-! DEFINITION. The statements for the provers. Each docstring names the rule of spec/ it formalises. Witnesses for their
hypotheses stand in Tests/Slice0.lean. -/

open Sys2Proof Sys2Proof.Machine

/-! ## Frames: decoding and encoding (30_encoding.md) -/

/-- Decoding the frame of a well-formed command gives the command back and leaves what follows (R70 to R77, R83). -/
def Obligations.DecodeOfEncode : Prop :=
  ∀ i : Instr, i.wf = true → ∀ rest : List Byte, decode (encode i ++ rest) = .ok (i, rest)

/-- Whatever decodes is the frame of the well-formed command it decodes to: no bit is ignored, and no frame has two
meanings (R78; 92_eei_decisions.md D4). -/
def Obligations.EncodeOfDecode : Prop :=
  ∀ (bs : List Byte) (i : Instr) (rest : List Byte), decode bs = .ok (i, rest) → i.wf = true ∧ bs = encode i ++ rest

/-- The example encodings of R85, both ways; its last two rows are legal frames that answer CONFIG_ERROR. -/
def Obligations.ExampleFramesDecode : Prop :=
  let key := (List.range 64).map (BitVec.ofNat 8)
  let row (i : Instr) (frame : List Byte) : Prop := encode i = frame ∧ decode frame = .ok (i, [])
  row (.init 64 []) [0x01, 0x04, 0x00, 0x00]
    ∧ row (.init 32 []) [0x01, 0x02, 0x00, 0x00]
    ∧ row (.init 64 key) ([0x01, 0x04, 0x02, 0x00] ++ key)
    ∧ row (.update [0x61, 0x62, 0x63]) [0x02, 0, 0, 0, 0x03, 0, 0, 0, 0, 0, 0, 0, 0x61, 0x62, 0x63]
    ∧ row (.update []) [0x02, 0, 0, 0, 0, 0, 0, 0, 0, 0, 0, 0]
    ∧ row .finalize [0x03, 0, 0, 0]
    ∧ row (.hash 1 [] [0x61, 0x62, 0x63]) [0x14, 0, 0, 0, 0x03, 0, 0, 0, 0, 0, 0, 0, 0x61, 0x62, 0x63]
    ∧ row (.init 0 []) [0x01, 0x00, 0x00, 0x00]
    ∧ row (.init 65 []) [0x11, 0x04, 0x00, 0x00]
    ∧ ∀ s : State, s.fault = false →
        exec (.init 0 []) s = .next (s.answered .configError [])
          ∧ exec (.init 65 []) s = .next (s.answered .configError [])

/-- R77: the frame's length from `OP`, `KKF` and `LEN` alone, read off the header word as a number; the whole frame is
consumed, and a byte string that ends inside a frame is refused and the core takes no step for it. -/
def Obligations.FrameLengthFromHeader : Prop :=
  (∀ bs : List Byte, bs.length < 4 → decode bs = .error .header)
    ∧ (∀ bs : List Byte, 4 ≤ bs.length →
        let header := leValue (bs.take 4)
        let op := header % 2 ^ 4
        let kk := header / 2 ^ 11 % 2 ^ 7
        let needed : Option Nat :=
          if op = 1 then some (4 + kk)
          else if op = 2 then
            if 12 ≤ bs.length then some (12 + leValue ((bs.drop 4).take 8)) else none
          else if op = 4 then
            if 12 + kk ≤ bs.length then some (4 + kk + 8 + leValue ((bs.drop (4 + kk)).take 8)) else none
          else some 4
        match needed with
        | none => decode bs = .error .length
        | some n => if n ≤ bs.length then ∃ i, decode bs = .ok (i, bs.drop n) else decode bs = .error .payload)
    ∧ ∀ (s : State) (missing : Truncation), s.rst = false → s.fault = false → s.commands ≠ [] →
        decode s.commands = .error missing → step s = .refused (.incompleteFrame missing)

/-- R78: exactly the illegal headers decode to `<reserved>`, read off the header word as a number; it changes no state and
answers ILLEGAL_COMMAND; a legal UPDATE with `LEN = 0` is an ordinary command. -/
def Obligations.ReservedExactlyIllegalHeaders : Prop :=
  (∀ (bs : List Byte) (i : Instr) (rest : List Byte), decode bs = .ok (i, rest) →
      let header := leValue (bs.take 4)
      let op := header % 2 ^ 4
      let nnf := header / 2 ^ 4 % 2 ^ 7
      let kkf := header / 2 ^ 11 % 2 ^ 7
      let rsv := header / 2 ^ 18
      ((∃ h p, i = .reserved h p) ↔
        op = 0 ∨ 5 ≤ op ∨ rsv ≠ 0 ∨ ((op = 2 ∨ op = 3) ∧ (nnf ≠ 0 ∨ kkf ≠ 0))))
    ∧ (∀ (s : State) (h : Header) (p : List Byte), s.fault = false →
        exec (.reserved h p) s = .next (s.answered .illegalCommand []))
    ∧ ∀ s : State, s.fault = false → s.phase = .opened → s.t.toNat + s.blen.val < 2 ^ 128 →
        exec (.update []) s = .next (s.answered .ok [])

/-- R79: digest and key lengths out of range are legal frames of INIT and HASH, consumed whole and answered with
ConfigurationError. -/
def Obligations.OutOfRangeLengthsAreLegalFrames : Prop :=
  ∀ (s : State) (nn : BitVec 7) (key data rest : List Byte), s.rst = false → s.fault = false →
    key.length < 2 ^ 7 → data.length < 2 ^ 64 → nn.toNat = 0 ∨ 64 < nn.toNat ∨ 64 < key.length →
    step { s with commands := encode (.init nn key) ++ rest }
        = .next (State.answered { s with commands := rest } .configError [])
      ∧ step { s with commands := encode (.hash nn key data) ++ rest }
        = .next (State.answered { s with commands := rest } .configError [])

/-- A table word placed by `withFetchWord` is the very next command a step runs, and it is the one `decodeTableWord` reads
(log 15: the model's own way to place a frame, not a rule of the spec). -/
def Obligations.TableWordIsNextCommand : Prop :=
  ∀ (s : State) (nbits w : Nat), s.fault = false →
    ∃ i, decodeTableWord nbits w = some i ∧ i.wf = true
      ∧ step (s.withFetchWord nbits w) = exec i { s with rst := false }

/-! ## The step, the fault bit and reset (10_state.md, 70_reset_and_hazards.md) -/

/-- A step runs the command at the front of the stream on the state from which its frame has been taken (R61, R140). -/
def Obligations.StepRunsDecodedCommand : Prop :=
  ∀ (s : State) (i : Instr) (rest : List Byte), s.rst = false → s.fault = false →
    decode s.commands = .ok (i, rest) → step s = exec i { s with commands := rest }

/-- With no byte waiting the core keeps all its state, and a reset event leaves nothing waiting. Both are the model's
reading of R193 and R200 (logs 3 and 5). -/
def Obligations.IdleKeepsStateResetEmptiesStream : Prop :=
  (∀ s : State, s.rst = false → s.fault = false → s.commands = [] → step s = .next s)
    ∧ ∀ s : State, s.rst = true → ∃ t, step s = .next t ∧ t.commands = [] ∧ t.rst = false

/-- R31: while `FAULT = 1` no command has a step; CounterOverflow sets the bit and nothing else does; reset clears it and
nothing else does. -/
def Obligations.FaultHaltsUntilReset : Prop :=
  (∀ (s : State) (i : Instr), s.fault = true → exec i s = .fault .counterOverflow)
    ∧ (∀ s : State, s.rst = false → s.fault = true → step s = .fault .counterOverflow)
    ∧ (∀ s t : State, step s = .next t → s.fault = false → t.fault = true →
        ∃ data rest, decode s.commands = .ok (.update data, rest) ∧ s.phase = .opened
          ∧ 2 ^ 128 - 1 < s.t.toNat + s.blen.val + data.length)
    ∧ (∀ s t : State, step s = .next t → s.fault = true → s.rst = true)
    ∧ ∀ s : State, s.rst = true → ∃ t, step s = .next t ∧ t.fault = false

/-- R200: a reset event sets every register to its value of R37, in any state, and answers nothing. -/
def Obligations.ResetEventSetsEveryRegister : Prop :=
  ∀ s : State, s.rst = true → ∃ t, step s = .next t
    ∧ t.phase = .idle ∧ t.fault = false ∧ (∀ i, (hi : i < 8) → t.h[i] = 0) ∧ t.t = 0
    ∧ (∀ a < 128, t.buf.read a = 0) ∧ t.blen.val = 0 ∧ t.nn = 0 ∧ t.kk = 0 ∧ t.responses = s.responses

/-- The table of R37, and its codes (R27). -/
def Obligations.ResetValues : Prop :=
  State.reset.phase.code = 0 ∧ State.reset.fault = false ∧ (∀ i, (hi : i < 8) → State.reset.h[i] = 0) ∧ State.reset.t = 0
    ∧ (∀ a < 128, State.reset.buf.read a = 0) ∧ State.reset.blen.val = 0 ∧ State.reset.nn = 0 ∧ State.reset.kk = 0

/-- R201: what each command does right after reset. -/
def Obligations.CommandsAfterReset : Prop :=
  (∀ data, exec (.update data) State.reset = .next (State.reset.answered .sessionClosed []))
    ∧ exec .finalize State.reset = .next (State.reset.answered .sessionClosed [])
    ∧ (∀ h p, exec (.reserved h p) State.reset = .next (State.reset.answered .illegalCommand []))
    ∧ ∀ (nn : BitVec 7) (key data : List Byte), 1 ≤ nn.toNat → nn.toNat ≤ 64 → key.length ≤ 64 →
        (∃ t, exec (.init nn key) State.reset = .next t ∧ t.phase = .opened)
          ∧ ∃ t digest, exec (.hash nn key data) State.reset = .next t ∧ t.responses = [⟨.ok, digest⟩]

/-! ## The engine (40_compression_engine.md) -/

/-- R101. -/
def Obligations.AdditionDiscardsCarry : Prop :=
  (∀ a b : Word, (add64 a b).toNat = (a.toNat + b.toNat) % 2 ^ 64)
    ∧ (∀ a b x : Word, (add64x3 a b x).toNat = (a.toNat + b.toNat + x.toNat) % 2 ^ 64)
    ∧ add64 0xFFFFFFFFFFFFFFFF 1 = 0
    ∧ add64x3 (BitVec.ofNat 64 (2 ^ 64 - 1)) (BitVec.ofNat 64 (2 ^ 64 - 1)) (BitVec.ofNat 64 (2 ^ 64 - 1))
        = 0xFFFFFFFFFFFFFFFD

/-- R102 and R104: bit by bit. -/
def Obligations.XorAndNotAreBitwise : Prop :=
  ∀ (a b : Word) (i : Nat), i < 64 →
    (xor64 a b).getLsbD i = (a.getLsbD i != b.getLsbD i) ∧ (not64 a).getLsbD i = !a.getLsbD i

/-- R103: for the four amounts, bit `i` of the result is bit `(i + n) mod 64` of the operand. -/
def Obligations.RotationMovesEveryBit : Prop :=
  (∀ (x : Word) (n : Nat), n ∈ [32, 24, 16, 63] →
      rotr64 x n = (x >>> n) ||| (x <<< (64 - n))
        ∧ ∀ i < 64, (rotr64 x n).getLsbD i = x.getLsbD ((i + n) % 64))
    ∧ (∀ x : Word, rotr64 x 63 = x.rotateLeft 1)
    ∧ rotr64 0x0123456789ABCDEF 24 = 0xABCDEF0123456789

/-- R109: G's four results as the eight sequential values, and nothing else written; its corner case and its worked
example. -/
def Obligations.MixGWritesFourWords : Prop :=
  (∀ (a b c d : Fin 16) (x y : Word) (v : Work), [a, b, c, d].Nodup →
      let a1 := v[a] + v[b] + x
      let d1 := (v[d] ^^^ a1).rotateRight 32
      let c1 := v[c] + d1
      let b1 := (v[b] ^^^ c1).rotateRight 24
      let a2 := a1 + b1 + y
      let d2 := (d1 ^^^ a2).rotateRight 16
      let c2 := c1 + d2
      let b2 := (b1 ^^^ c2).rotateRight 63
      let w := mixG a b c d x y v
      w[a] = a2 ∧ w[b] = b2 ∧ w[c] = c2 ∧ w[d] = d2 ∧ ∀ i : Fin 16, i ∉ [a, b, c, d] → w[i] = v[i])
    ∧ (∀ (a b c d : Fin 16) (v : Work), [a, b, c, d].Nodup → v[a] = 0 → v[b] = 0 → v[c] = 0 → v[d] = 0 →
        let w := mixG a b c d 0 0 v
        w[a] = 0 ∧ w[b] = 0 ∧ w[c] = 0 ∧ w[d] = 0)
    ∧ ∀ (a b c d : Fin 16) (v : Work), [a, b, c, d].Nodup → v[a] = 1 → v[b] = 2 → v[c] = 3 → v[d] = 4 →
        let w := mixG a b c d 5 6 v
        w[a] = 0x0000010000000C0E ∧ w[b] = 0x181C021802181806 ∧ w[c] = 0x0C0E000C010C0003 ∧ w[d] = 0x0C0E0000010C0000

/-- R111: the four applications of the column pass, and that their order does not change the result; and the same of the
diagonal pass (R112). -/
def Obligations.PassOrderDoesNotMatter : Prop :=
  ∀ (m : Block) (s : Vector (Fin 16) 16) (v : Work),
    (∀ order : List (Work → Work),
        order.Perm [mixG 0 4 8 12 m[s[0]] m[s[1]], mixG 1 5 9 13 m[s[2]] m[s[3]],
          mixG 2 6 10 14 m[s[4]] m[s[5]], mixG 3 7 11 15 m[s[6]] m[s[7]]] →
        order.foldl (fun w g => g w) v = columnPass m s v)
      ∧ ∀ order : List (Work → Work),
        order.Perm [mixG 0 5 10 15 m[s[8]] m[s[9]], mixG 1 6 11 12 m[s[10]] m[s[11]],
          mixG 2 7 8 13 m[s[12]] m[s[13]], mixG 3 4 9 14 m[s[14]] m[s[15]]] →
        order.foldl (fun w g => g w) v = diagonalPass m s v

/-- R106's "each row is a permutation" and R107: round `r` uses row `r mod 10`, which a 12-row table equals. -/
def Obligations.ScheduleRows : Prop :=
  (∀ r, (hr : r < 10) → sigma[r].toList.Perm (List.finRange 16))
    ∧ (∀ r, sigmaRow r = sigma[r % 10]'(Nat.mod_lt r (by decide)))
    ∧ sigmaRow 10 = sigma[0] ∧ sigmaRow 11 = sigma[1]
    ∧ ∀ r, (hr : r < 12) → sigmaRow r = (sigma ++ #v[sigma[0], sigma[1]])[r]

/-- R114, R115, R116: every word of the work vector before the rounds. -/
def Obligations.WorkVectorBeforeRounds : Prop :=
  ∀ (h : Chain) (t : Counter) (f : Bool),
    let v := injectFinal f (injectCounter t (loadWork h))
    (∀ i, (hi : i < 8) → (loadWork h)[i] = h[i] ∧ (loadWork h)[i + 8] = iv[i])
      ∧ (∀ i, (hi : i < 12) → v[i] = (loadWork h)[i])
      ∧ v[12] = iv[4] ^^^ t.extractLsb' 0 64 ∧ v[13] = iv[5] ^^^ t.extractLsb' 64 64
      ∧ (t.toNat < 2 ^ 64 → v[13] = iv[5])
      ∧ v[14] = (if f then ~~~iv[6] else iv[6]) ∧ v[15] = iv[7]

/-- R117 and R118: exactly the rounds 0 to 11 in order, then all eight words folded with the `h` that entered. -/
def Obligations.TwelveRoundsThenFold : Prop :=
  ∀ (h : Chain) (m : Block) (t : Counter) (f : Bool),
    let v := (List.range 12).foldl (fun v r => mixRound m r v) (injectFinal f (injectCounter t (loadWork h)))
    ∀ i, (hi : i < 8) → (compress h m t f)[i] = h[i] ^^^ v[i] ^^^ v[i + 8]

/-- R120's worked example: the one compression of "abc". -/
def Obligations.CompressAbcBlock : Prop :=
  let h := iv.set 0 (iv[0] ^^^ 0x01010040)
  let m : Block := (Vector.replicate 16 0).set 0 0x636261
  let h' := compress h m 3 true
  h'[0] = 0x0D4D1C983FA580BA ∧ h'[7] = 0x239900D4ED8623B9

/-- The layout of R82's five buses around F: word `i` at bits `64i+63 : 64i`. -/
def Obligations.EnginePortCarriesCompress : Prop :=
  ∀ (hIn : BitVec 512) (mIn : BitVec 1024) (tIn : BitVec 128) (fIn : BitVec 1) (h : Chain) (m : Block),
    (∀ i, (hi : i < 8) → h[i] = hIn.extractLsb' (64 * i) 64) →
    (∀ i, (hi : i < 16) → m[i] = mIn.extractLsb' (64 * i) 64) →
    ∀ i, (hi : i < 8) →
      (enginePort hIn mIn tIn fIn).extractLsb' (64 * i) 64 = (compress h m tIn (decide (fIn = 1)))[i]

/-! ## The block buffer and the byte views (20_memory.md) -/

/-- Equal memories are equal data: two canonical memories that read alike are the same list (the model's form, log 19). -/
def Obligations.CanonicalMemoryIsUnique : Prop :=
  ∀ m n : Memory, m.wf → n.wf → (∀ a < 128, m.read a = n.read a) → m = n

/-- R52's MemRead and MemWrite for `addr + n ≤ 128`, and that reading back gives what was written. The last clause is the
model's choice (log 20): R52 gives no meaning past byte 127, and there both operations answer none. -/
def Obligations.MemWriteThenMemRead : Prop :=
  ∀ (m : Memory) (addr n v : Nat),
    (addr + n ≤ 128 →
        m.readLE addr n = some (∑ j ∈ Finset.range n, (m.read (addr + j)).toNat * 2 ^ (8 * j))
          ∧ ∃ m', m.writeLE addr n v = some m'
            ∧ (∀ j < n, m'.read (addr + j) = BitVec.ofNat 8 (v / 2 ^ (8 * j)))
            ∧ (∀ a, a < addr ∨ addr + n ≤ a → m'.read a = m.read a)
            ∧ m'.readLE addr n = some (v % 2 ^ (8 * n)))
      ∧ (128 < addr + n → m.readLE addr n = none ∧ m.writeLE addr n v = none)

/-- R144: FORM_BLOCK's words as the little-endian sums of pending bytes, zero past `BLEN`; with a full buffer they are the
words MemRead gives (R53). -/
def Obligations.FormBlockPadsPendingBytes : Prop :=
  ∀ (s : State) (i : Nat) (hi : i < 16),
    (formBlock s)[i].toNat
        = ∑ j ∈ Finset.range 8,
            (if 8 * i + j < s.blen.val then s.buf.read (8 * i + j) else 0).toNat * 2 ^ (8 * j)
      ∧ (s.blen.val = 128 → s.buf.readLE (8 * i) 8 = some (formBlock s)[i].toNat)

/-- R54 and R145: digest byte `k` is byte `k mod 8` of word `k div 8`, and there are `NN` of them. -/
def Obligations.DigestIsLittleEndianPrefix : Prop :=
  ∀ s : State, s.nn.toNat ≤ 64 →
    (serialize s).length = s.nn.toNat
      ∧ ∀ k, (hk : k < s.nn.toNat) → (hw : k / 8 < 8) →
          (serialize s)[k]? = some (s.h[k / 8].extractLsb' (8 * (k % 8)) 8)

/-- `T` is its two halves (R21, R23), and those are what the engine injects (R115). -/
def Obligations.CounterIsItsTwoHalves : Prop :=
  ∀ (s : State) (v : Work),
    s.tHi ++ s.tLo = s.t ∧ s.t.toNat = s.tHi.toNat * 2 ^ 64 + s.tLo.toNat
      ∧ (injectCounter s.t v)[12] = v[12] ^^^ s.tLo ∧ (injectCounter s.t v)[13] = v[13] ^^^ s.tHi

/-! ## The session's helper operations (41_session_commands.md R141 to R143) -/

/-- R141: the parameter word as one sum, the eight initial words, nothing else written, and the three examples. -/
def Obligations.InitStateLoadsParameterWord : Prop :=
  (∀ (s : State) (nn kk : BitVec 7), nn.toNat ≤ 64 → kk.toNat ≤ 64 →
      let t := initState nn kk s
      parameterWord nn kk = BitVec.ofNat 64 (0x01010000 + kk.toNat * 2 ^ 8 + nn.toNat)
        ∧ t.h[0] = iv[0] ^^^ BitVec.ofNat 64 (0x01010000 + kk.toNat * 2 ^ 8 + nn.toNat)
        ∧ (∀ i, (hi : i < 8) → i ≠ 0 → t.h[i] = iv[i])
        ∧ t = { s with h := t.h })
    ∧ ∀ s : State, (initState 64 0 s).h[0] = 0x6A09E667F2BDC948 ∧ (initState 32 0 s).h[0] = 0x6A09E667F2BDC928
        ∧ (initState 64 64 s).h[0] = 0x6A09E667F2BD8948

/-- R143: a byte into a buffer with room, and a byte into a full buffer, which is compressed first with the counter already
increased; everything else unchanged. -/
def Obligations.AbsorbHoldsBackFullBuffer : Prop :=
  ∀ (s : State) (b : Byte),
    (s.blen.val < 128 →
        ∃ (m : Memory) (n : Fin 129), absorb s b = { s with buf := m, blen := n } ∧ n.val = s.blen.val + 1
          ∧ ∀ a, m.read a = if a = s.blen.val then b else s.buf.read a)
      ∧ (s.blen.val = 128 →
        ∃ (m : Memory) (n : Fin 129),
          absorb s b = { s with t := s.t + 128, h := compress s.h (formBlock s) (s.t + 128) false, buf := m, blen := n }
            ∧ n.val = 1 ∧ ∀ a, m.read a = if a = 0 then b else s.buf.read a)
      ∧ 1 ≤ (absorb s b).blen.val ∧ (absorb s b).blen.val ≤ 128

/-! ## The commands (41_session_commands.md R146 to R150) -/

/-- R146, with R141 and R142: INIT in every phase. With legal lengths it completes with the state given here, every field
of it; with others it answers ConfigurationError and writes no register. -/
def Obligations.InitOpensSession : Prop :=
  ∀ (s : State) (nn : BitVec 7) (key : List Byte), s.fault = false →
    (1 ≤ nn.toNat → nn.toNat ≤ 64 → key.length ≤ 64 →
        ∃ t, exec (.init nn key) s = .next t
          ∧ t.h[0] = iv[0] ^^^ BitVec.ofNat 64 (0x01010000 + key.length * 2 ^ 8 + nn.toNat)
          ∧ (∀ i, (hi : i < 8) → i ≠ 0 → t.h[i] = iv[i])
          ∧ t.t = 0 ∧ t.blen.val = (if key = [] then 0 else 128)
          ∧ (∀ a < 128, t.buf.read a = if key = [] then s.buf.read a else key.getD a 0)
          ∧ t.nn = nn ∧ t.kk.toNat = key.length ∧ t.phase = .opened
          ∧ t.fault = s.fault ∧ t.commands = s.commands ∧ t.rst = s.rst
          ∧ t.responses = s.responses ++ [⟨.ok, []⟩])
      ∧ (nn.toNat = 0 ∨ 64 < nn.toNat ∨ 64 < key.length →
        exec (.init nn key) s = .next (s.answered .configError []))

/-- R147, R151: UPDATE on an open session completes; with `P` the pending bytes followed by the data, the first
`(|P| - 1) div 128` blocks of `P` are compressed with `f = 0` and counters rising by 128, and the rest is pending. The bytes
of `BUF` stored to are those at `(BLEN + j) mod 128`, each holding the last byte put there; every other byte and every other
register is unchanged. -/
def Obligations.UpdateCompressesAllButLastBlock : Prop :=
  ∀ (s : State) (data : List Byte), s.fault = false → s.phase = .opened →
    s.t.toNat + s.blen.val + data.length < 2 ^ 128 →
    ∃ t, exec (.update data) s = .next t
      ∧ let stream := pendingBytes s ++ data
        let blocks := (stream.length - 1) / 128
        t.t.toNat = s.t.toNat + 128 * blocks
          ∧ t.h = interiorChain s.h s.t stream blocks
          ∧ t.blen.val = stream.length - 128 * blocks
          ∧ pendingBytes t = stream.drop (128 * blocks)
          ∧ (∀ j < data.length, data.length ≤ j + 128 → t.buf.read ((s.blen.val + j) % 128) = data.getD j 0)
          ∧ (∀ a < 128, (∀ j < data.length, (s.blen.val + j) % 128 ≠ a) → t.buf.read a = s.buf.read a)
          ∧ t.nn = s.nn ∧ t.kk = s.kk ∧ t.phase = s.phase ∧ t.fault = s.fault
          ∧ t.commands = s.commands ∧ t.rst = s.rst ∧ t.responses = s.responses ++ [⟨.ok, []⟩]

/-- R147: UPDATE's three outcomes, by the phase and the counter's range, and ABSORB on each byte in order. -/
def Obligations.UpdateChecksThenAbsorbs : Prop :=
  ∀ (s : State) (data : List Byte), s.fault = false →
    (s.phase ≠ .opened → exec (.update data) s = .next (s.answered .sessionClosed []))
      ∧ (s.phase = .opened → 2 ^ 128 - 1 < s.t.toNat + s.blen.val + data.length →
          exec (.update data) s = .next { s with fault := true })
      ∧ (s.phase = .opened → s.t.toNat + s.blen.val + data.length ≤ 2 ^ 128 - 1 →
          exec (.update data) s = .next ((data.foldl absorb s).answered .ok []))

/-- R148: FINALIZE on an open session completes: the counter takes the remaining byte count, the zero-padded pending bytes
are compressed with `f = 1`, and the `NN` digest bytes are answered; `BUF`, `BLEN` and everything else stay. On a session
that is not open it answers SessionClosedError. -/
def Obligations.FinalizeCompressesLastBlock : Prop :=
  ∀ s : State, s.fault = false →
    (s.phase = .opened →
        ∃ t digest, exec .finalize s = .next t
          ∧ t.t = s.t + BitVec.ofNat 128 s.blen.val
          ∧ (s.t.toNat + s.blen.val < 2 ^ 128 → t.t.toNat = s.t.toNat + s.blen.val)
          ∧ t.h = compress s.h (streamBlock (pendingBytes s) 0) t.t true
          ∧ t.phase = .finalized
          ∧ t.buf = s.buf ∧ t.blen = s.blen ∧ t.nn = s.nn ∧ t.kk = s.kk ∧ t.fault = s.fault
          ∧ t.commands = s.commands ∧ t.rst = s.rst ∧ t.responses = s.responses ++ [⟨.ok, digest⟩]
          ∧ (s.nn.toNat ≤ 64 → digest.length = s.nn.toNat
              ∧ ∀ k, k < s.nn.toNat → (hw : k / 8 < 8) → digest[k]? = some (t.h[k / 8].extractLsb' (8 * (k % 8)) 8)))
      ∧ (s.phase ≠ .opened → exec .finalize s = .next (s.answered .sessionClosed []))

/-- R149: HASH is INIT, UPDATE and FINALIZE in one command: the state they leave, with the one response of the last. With
illegal lengths it answers ConfigurationError and writes no register. -/
def Obligations.HashIsInitUpdateFinalize : Prop :=
  ∀ (s : State) (nn : BitVec 7) (key data : List Byte), s.fault = false → data.length < 2 ^ 64 →
    (1 ≤ nn.toNat → nn.toNat ≤ 64 → key.length ≤ 64 →
        ∃ s1 s2 s3 digest,
          exec (.init nn key) s = .next s1 ∧ exec (.update data) s1 = .next s2 ∧ exec .finalize s2 = .next s3
            ∧ s3.responses = s2.responses ++ [⟨.ok, digest⟩]
            ∧ exec (.hash nn key data) s = .next { s3 with responses := s.responses ++ [⟨.ok, digest⟩] })
      ∧ (nn.toNat = 0 ∨ 64 < nn.toNat ∨ 64 < key.length →
        exec (.hash nn key data) s = .next (s.answered .configError []))

/-- R150 and R184: every illegal header is answered ILLEGAL_COMMAND in every phase, its frame consumed, nothing written;
the rule's example, `.frame 05000000`, is one. -/
def Obligations.ReservedAnswersIllegalCommand : Prop :=
  (∀ (s : State) (h : Header) (p : List Byte), s.fault = false →
      exec (.reserved h p) s = .next { s with responses := s.responses ++ [⟨.illegalCommand, []⟩] })
    ∧ (∀ (s : State) (i : Instr) (rest : List Byte), s.rst = false → s.fault = false →
        decode s.commands = .ok (i, rest) → (Header.ofBytes s.commands).illegal = true →
        step s = .next { s with commands := rest, responses := s.responses ++ [⟨.illegalCommand, []⟩] })
    ∧ decode [0x05, 0, 0, 0] = .ok (.reserved ⟨5, 0, 0, 0⟩ [], []) ∧ Response.bytes ⟨.illegalCommand, []⟩ = [0x03]

/-! ## Errors and the fault (60_exceptions.md) -/

/-- R181: INIT and HASH raise ConfigurationError for an illegal length, in every phase; UPDATE and FINALIZE never do; and
a command that answers it is an INIT or a HASH with an illegal length. -/
def Obligations.ConfigurationErrorOnlyAtConstruction : Prop :=
  (∀ (s : State) (nn : BitVec 7) (key data : List Byte), s.fault = false →
      nn.toNat < 1 ∨ 64 < nn.toNat ∨ 64 < key.length →
      exec (.init nn key) s = .next (s.answered .configError [])
        ∧ exec (.hash nn key data) s = .next (s.answered .configError []))
    ∧ (∀ (s t : State) (data p : List Byte), exec (.update data) s = .next t ∨ exec .finalize s = .next t →
        t.responses ≠ s.responses ++ [⟨.configError, p⟩])
    ∧ ∀ (i : Instr) (s t : State) (p : List Byte), exec i s = .next t →
        t.responses = s.responses ++ [⟨.configError, p⟩] →
        ∃ nn key, (i = .init nn key ∨ ∃ data, i = .hash nn key data)
          ∧ (nn.toNat < 1 ∨ 64 < nn.toNat ∨ 64 < key.length)

/-- R182: SessionClosedError, after FINALIZE and before any INIT alike. -/
def Obligations.ClosedSessionRejectsUpdateAndFinalize : Prop :=
  ∀ (s : State) (data : List Byte), s.fault = false → s.phase = .idle ∨ s.phase = .finalized →
    exec (.update data) s = .next (s.answered .sessionClosed [])
      ∧ exec .finalize s = .next (s.answered .sessionClosed [])

/-- R183: a command that responds with an error status writes no register. -/
def Obligations.ErrorsWriteNoRegister : Prop :=
  ∀ (i : Instr) (s t : State) (status : Status) (payload : List Byte), exec i s = .next t →
    t.responses = s.responses ++ [⟨status, payload⟩] → status ≠ .ok →
    t.h = s.h ∧ t.t = s.t ∧ t.buf = s.buf ∧ t.blen = s.blen ∧ t.nn = s.nn ∧ t.kk = s.kk ∧ t.phase = s.phase
      ∧ t.fault = s.fault ∧ t.commands = s.commands ∧ t.rst = s.rst

/-- R186: CounterOverflow sets `FAULT`, writes no other register and sends no response. -/
def Obligations.CounterOverflowSetsFaultOnly : Prop :=
  ∀ (s : State) (data : List Byte), s.fault = false → s.phase = .opened →
    2 ^ 128 - 1 < s.t.toNat + s.blen.val + data.length →
    exec (.update data) s = .next { s with fault := true }

/-- R185: `FAULT`, then IllegalCommand, then ConfigurationError or SessionClosedError, then CounterOverflow. -/
def Obligations.ConditionPriority : Prop :=
  (∀ s : State, s.rst = false → s.fault = true → step s = .fault .counterOverflow)
    ∧ (∀ (s : State) (h : Header) (p rest : List Byte), s.rst = false → s.fault = false → h.illegal = true →
        decode s.commands = .ok (.reserved h p, rest) →
        step s = .next (State.answered { s with commands := rest } .illegalCommand []))
    ∧ (∀ (s : State) (nn : BitVec 7) (key data : List Byte), s.fault = false →
        nn.toNat < 1 ∨ 64 < nn.toNat ∨ 64 < key.length →
        exec (.init nn key) s = .next (s.answered .configError [])
          ∧ exec (.hash nn key data) s = .next (s.answered .configError []))
    ∧ (∀ (s : State) (data : List Byte), s.fault = false → s.phase ≠ .opened →
        exec (.update data) s = .next (s.answered .sessionClosed [])
          ∧ exec .finalize s = .next (s.answered .sessionClosed []))
    ∧ ∀ (s : State) (data : List Byte), s.fault = false → s.phase = .opened →
        2 ^ 128 - 1 < s.t.toNat + s.blen.val + data.length → exec (.update data) s = .next { s with fault := true }

/-! ## Rules of the whole machine -/

/-- R28: the phase transitions, with each outcome; a failed command changes nothing. -/
def Obligations.PhaseTransitions : Prop :=
  State.reset.phase = .idle
    ∧ ∀ (s : State) (i : Instr) (t : State), exec i s = .next t →
        let answered (status : Status) := ∃ payload, t.responses = s.responses ++ [⟨status, payload⟩]
        let failed (status : Status) := t = { s with responses := s.responses ++ [⟨status, []⟩] }
        let legal (nn : BitVec 7) (key : List Byte) := 1 ≤ nn.toNat ∧ nn.toNat ≤ 64 ∧ key.length ≤ 64
        match i with
        | .init nn key =>
          (legal nn key → answered .ok ∧ t.phase = .opened) ∧ (¬legal nn key → failed .configError)
        | .update data =>
          (s.phase = .opened → t.phase = .opened
              ∧ (s.t.toNat + s.blen.val + data.length ≤ 2 ^ 128 - 1 → answered .ok))
            ∧ (s.phase ≠ .opened → failed .sessionClosed)
        | .finalize =>
          (s.phase = .opened → answered .ok ∧ t.phase = .finalized) ∧ (s.phase ≠ .opened → failed .sessionClosed)
        | .hash nn key _ =>
          (legal nn key → answered .ok ∧ t.phase = .finalized) ∧ (¬legal nn key → failed .configError)
        | .reserved _ _ => failed .illegalCommand

/-- R81: the status codes, which command sends which, one response for every command that does not fault, and a payload
only with `OK` on FINALIZE and HASH (R80). -/
def Obligations.OneResponsePerCommand : Prop :=
  (Status.code .ok = 0x00 ∧ Status.code .configError = 0x01 ∧ Status.code .sessionClosed = 0x02
      ∧ Status.code .illegalCommand = 0x03 ∧ ∀ r : Response, r.bytes = r.status.code :: r.payload)
    ∧ ∀ (i : Instr) (s t : State), exec i s = .next t →
        (t.fault = true ∧ t.responses = s.responses ∧ ∃ data, i = .update data)
          ∨ (t.fault = false ∧ ∃ status payload, t.responses = s.responses ++ [⟨status, payload⟩]
              ∧ (payload ≠ [] → status = .ok ∧ (i = .finalize ∨ ∃ nn key data, i = .hash nn key data))
              ∧ (status = .configError → (∃ nn key, i = .init nn key) ∨ ∃ nn key data, i = .hash nn key data)
              ∧ (status = .sessionClosed → (∃ data, i = .update data) ∨ i = .finalize)
              ∧ (status = .illegalCommand ↔ ∃ h p, i = .reserved h p))

/-- R21's column "written by": which commands may change which register; no command changes the command stream or the
reset signal, and none takes a response back. -/
def Obligations.RegisterWriters : Prop :=
  ∀ (i : Instr) (s t : State), exec i s = .next t →
    (t.nn ≠ s.nn ∨ t.kk ≠ s.kk → (∃ nn key, i = .init nn key) ∨ ∃ nn key data, i = .hash nn key data)
      ∧ (t.buf ≠ s.buf ∨ t.blen ≠ s.blen → i ≠ .finalize ∧ ∀ h p, i ≠ .reserved h p)
      ∧ (t.h ≠ s.h ∨ t.t ≠ s.t → ∀ h p, i ≠ .reserved h p)
      ∧ (t.phase ≠ s.phase → (∀ data, i ≠ .update data) ∧ ∀ h p, i ≠ .reserved h p)
      ∧ (t.fault ≠ s.fault → t.fault = true ∧ ∃ data, i = .update data)
      ∧ t.commands = s.commands ∧ t.rst = s.rst ∧ ∃ more, t.responses = s.responses ++ more

/-- R155: every successful FINALIZE or HASH returns exactly `NN` bytes, HASH's `NN` being its own header's, and HASH's
digest depends on its operands only. -/
def Obligations.DigestLengthAndDeterminism : Prop :=
  (∀ (s t : State) (digest : List Byte), s.Inv → exec .finalize s = .next t →
      t.responses = s.responses ++ [⟨.ok, digest⟩] → digest.length = s.nn.toNat ∧ 1 ≤ s.nn.toNat ∧ s.nn.toNat ≤ 64)
    ∧ (∀ (s t : State) (nn : BitVec 7) (key data digest : List Byte), exec (.hash nn key data) s = .next t →
        t.responses = s.responses ++ [⟨.ok, digest⟩] →
        digest.length = nn.toNat ∧ t.nn = nn ∧ 1 ≤ nn.toNat ∧ nn.toNat ≤ 64)
    ∧ ∀ (s t s' t' : State) (nn : BitVec 7) (key data digest digest' : List Byte),
        exec (.hash nn key data) s = .next t → t.responses = s.responses ++ [⟨.ok, digest⟩] →
        exec (.hash nn key data) s' = .next t' → t'.responses = s'.responses ++ [⟨.ok, digest'⟩] →
        digest = digest'

/-- Reset meets the invariant (R35, R37). -/
def Obligations.ResetMeetsInvariant : Prop := State.reset.Inv

/-- Every step keeps the invariant, from every state that meets it (R35 items 1 to 4; the canonical form of `BUF`). -/
def Obligations.EveryStepKeepsInvariant : Prop := ∀ s t : State, s.Inv → step s = .next t → t.Inv

/-- R153: one UPDATE of two pieces leaves the very state two UPDATEs leave, but for the second response. -/
def Obligations.ChunkingInvariance : Prop :=
  ∀ (s : State) (first second : List Byte), s.fault = false → s.phase = .opened →
    s.t.toNat + s.blen.val + first.length + second.length < 2 ^ 128 →
    ∃ s1 s2, exec (.update first) s = .next s1 ∧ exec (.update second) s1 = .next s2
      ∧ exec (.update (first ++ second)) s = .next { s2 with responses := s.responses ++ [⟨.ok, []⟩] }

/-- R154: once a session with a key absorbs a data byte, holding the key block back and compressing it at once with counter
128 leave the same state. -/
def Obligations.HeldBackKeyEqualsEagerKey : Prop :=
  ∀ (s s1 : State) (nn : BitVec 7) (key data : List Byte), key ≠ [] → key.length ≤ 64 → data ≠ [] →
    data.length < 2 ^ 64 → exec (.init nn key) s = .next s1 → s1.phase = .opened →
    s1.responses = s.responses ++ [⟨.ok, []⟩] →
    exec (.update data) s1
      = exec (.update data)
          { s1 with t := 128, h := compress s1.h (streamBlock (paddedKey key) 0) 128 false, blen := 0 }

/-- What the core does not read again is never observable, however long it runs: the data registers outside an open session
(R37), `KK`, and the bytes of `BUF` past `BLEN` (R205). -/
def Obligations.UnreadStateIsUnobservable : Prop :=
  ∀ (n : Nat) (s t : State), SameView s t → SameOutcome (run n s) (run n t)

/-- The block chain of R151 and R152, closed by R148, from bytes to digest (derived): a run over the frames INIT, any
UPDATEs, FINALIZE answers every frame, and the digest and the registers are those of the blocks of the key block followed
by all the data, however it was cut (R153): every block but the last with `f = 0` and counter `128(k+1)`, the last
zero-padded with `f = 1` and the total length. -/
def Obligations.SessionRunHashesByteStream : Prop :=
  ∀ (s : State) (nn : BitVec 7) (key rest : List Byte) (pieces : List (List Byte)),
    s.rst = false → s.fault = false → 1 ≤ nn.toNat → nn.toNat ≤ 64 → key.length ≤ 64 →
    (∀ piece ∈ pieces, piece.length < 2 ^ 64) → (keyStream key ++ pieces.flatten).length < 2 ^ 128 →
    s.commands = encode (.init nn key) ++ (pieces.flatMap fun piece => encode (.update piece)) ++ encode .finalize ++ rest →
    ∃ t, run (pieces.length + 2) s = .next t
      ∧ let stream := keyStream key ++ pieces.flatten
        t.h = sessionChain (iv.set 0 (iv[0] ^^^ BitVec.ofNat 64 (0x01010000 + key.length * 2 ^ 8 + nn.toNat))) stream
          ∧ t.t.toNat = stream.length ∧ t.phase = .finalized ∧ t.nn = nn ∧ t.kk.toNat = key.length
          ∧ t.fault = false ∧ t.rst = false ∧ t.commands = rest
          ∧ t.responses = s.responses ++ List.replicate (pieces.length + 1) ⟨.ok, []⟩
              ++ [⟨.ok, (chainBytes t.h).take nn.toNat⟩]

/-- R84: the frame of each assembler line, its header written as a number; every mnemonic is one frame, `pat(n)` is the `n`
bytes `j mod 251`, and a program is its lines' frames in order. -/
def Obligations.AssemblerLines : Prop :=
  (∀ (nn : BitVec 7) (key : List Byte), key.length < 128 →
      assembleLine (.init nn key) = leBytes 4 (1 + nn.toNat * 2 ^ 4 + key.length * 2 ^ 11) ++ key)
    ∧ (∀ data : LineData, data.bytes.length < 2 ^ 64 →
        assembleLine (.update data) = [2, 0, 0, 0] ++ leBytes 8 data.bytes.length ++ data.bytes)
    ∧ assembleLine .finalize = [3, 0, 0, 0]
    ∧ (∀ (nn : BitVec 7) (key : List Byte) (data : LineData), key.length < 128 → data.bytes.length < 2 ^ 64 →
        assembleLine (.hash nn key data)
          = leBytes 4 (4 + nn.toNat * 2 ^ 4 + key.length * 2 ^ 11) ++ key ++ leBytes 8 data.bytes.length ++ data.bytes)
    ∧ (∀ bytes : List Byte, assembleLine (.frame bytes) = bytes)
    ∧ (∀ n : Nat, (patBytes n).length = n ∧ ∀ j < n, ((patBytes n).getD j 0).toNat = j % 251)
    ∧ ∀ (line : Line) (lines : List Line), assemble (line :: lines) = assembleLine line ++ assemble lines
end

