-- ==== Sys2Proof/Laws/Bytes.lean ====
section
/-! SUPPORT. The byte-order helpers and the header: each is inverse to its partner. -/

namespace Sys2Proof

namespace Machine

@[simp] theorem leBytes_length (n v : Nat) : (leBytes n v).length = n := by
  induction n generalizing v with
  | zero => rfl
  | succ n ih => simp [leBytes, ih]

theorem leValue_lt (bs : List Byte) : leValue bs < 256 ^ bs.length := by
  induction bs with
  | nil => simp [leValue]
  | cons b bs ih =>
    have hb := b.isLt
    simp only [leValue, List.length_cons, pow_succ]
    omega

theorem leValue_leBytes (n v : Nat) : leValue (leBytes n v) = v % 256 ^ n := by
  induction n generalizing v with
  | zero => simp [leBytes, leValue, Nat.mod_one]
  | succ n ih =>
    rw [leBytes, leValue, ih, BitVec.toNat_ofNat, show 256 ^ (n + 1) = 256 * 256 ^ n from Nat.pow_succ',
      Nat.mod_mul]

theorem leBytes_leValue (bs : List Byte) : leBytes bs.length (leValue bs) = bs := by
  induction bs with
  | nil => rfl
  | cons b bs ih =>
    have hb := b.isLt
    have hd : (b.toNat + 256 * leValue bs) / 256 = leValue bs := by omega
    simp only [leValue, List.length_cons, leBytes, hd, ih, List.cons.injEq, and_true]
    apply BitVec.eq_of_toNat_eq
    simp only [BitVec.toNat_ofNat]
    omega

theorem paddedKey_length {key : List Byte} (h : key.length ≤ 128) : (paddedKey key).length = 128 := by
  simp only [paddedKey, List.length_append, List.length_replicate]; omega

theorem paddedKey_getD (key : List Byte) (j : Nat) : (paddedKey key).getD j 0 = key.getD j 0 := by
  simp only [paddedKey, List.getD_eq_getElem?_getD]
  by_cases h : j < key.length
  · rw [List.getElem?_append_left h]
  · rw [List.getElem?_append_right (by omega), List.getElem?_eq_none (l := key) (by omega), List.getElem?_replicate]
    split <;> rfl

end Machine

open Machine

@[simp] theorem Header.toBytes_length (h : Header) : h.toBytes.length = 4 := leBytes_length 4 _

theorem Header.ofWord_toWord (h : Header) : Header.ofWord h.toWord = h := by
  obtain ⟨op, nnf, kkf, rsv⟩ := h
  simp only [Header.ofWord, Header.toWord, Header.mk.injEq]
  refine ⟨?_, ?_, ?_, ?_⟩ <;> ext i hi <;> rw [BitVec.getElem_extractLsb'] <;> simp only [BitVec.getLsbD_append]
  · rw [if_pos (by omega), show 0 + i = i by omega, BitVec.getLsbD_eq_getElem]
  · rw [if_neg (by omega), if_pos (by omega), show 4 + i - 4 = i by omega, BitVec.getLsbD_eq_getElem]
  · rw [if_neg (by omega), if_neg (by omega), if_pos (by omega), show 11 + i - 4 - 7 = i by omega,
      BitVec.getLsbD_eq_getElem]
  · rw [if_neg (by omega), if_neg (by omega), if_neg (by omega), show 18 + i - 4 - 7 - 7 = i by omega,
      BitVec.getLsbD_eq_getElem]

/-- The header of a frame that begins with a header's four bytes. -/
@[simp] theorem Header.ofBytes_toBytes (h : Header) (rest : List Byte) : Header.ofBytes (h.toBytes ++ rest) = h := by
  have take : (h.toBytes ++ rest).take 4 = h.toBytes := List.take_left' (by simp)
  rw [Header.ofBytes, take, Header.toBytes, leValue_leBytes, Nat.mod_eq_of_lt (by have := h.toWord.isLt; omega),
    BitVec.ofNat_toNat, BitVec.setWidth_eq, Header.ofWord_toWord]

end Sys2Proof
end

