-- ==== Sys2Proof/Laws/Memory.lean ====
section
/-! SUPPORT. What the memory operations do: a read after a write, and that every operation keeps the canonical form. -/

namespace Sys2Proof.Machine

theorem read_erase (m : Memory) (a x : Nat) :
    (m.erase a).read x = if x = a then Memory.unlisted else m.read x := by
  induction m with
  | nil => simp [Memory.erase, Memory.read]
  | cons c m ih =>
    obtain ⟨k, b⟩ := c
    simp only [Memory.erase] at ih
    by_cases hk : k = a
    · subst hk
      simp only [Memory.erase, List.filter_cons, bne_self_eq_false, Bool.false_eq_true, if_false, ih, Memory.read]
      by_cases hx : x = k
      · simp [hx]
      · simp [hx, Ne.symm hx]
    · simp only [Memory.erase, List.filter_cons, bne_iff_ne, ne_eq, hk, not_false_iff, if_true, Memory.read, ih]
      by_cases hx : k = x
      · subst hx; simp [hk]
      · simp [hx]

theorem erase_lists_no (m : Memory) (a : Nat) : ∀ c ∈ m.erase a, c.1 ≠ a := by
  simp [Memory.erase]

theorem read_insert {m : Memory} {a : Nat} (fresh : ∀ c ∈ m, c.1 ≠ a) (v : Byte) (x : Nat) :
    (m.insert a v).read x = if x = a then v else m.read x := by
  induction m with
  | nil => simp [Memory.insert, Memory.read, eq_comm]
  | cons c m ih =>
    obtain ⟨k, b⟩ := c
    have hk : k ≠ a := fresh (k, b) List.mem_cons_self
    have ih := ih fun c hc => fresh c (List.mem_cons_of_mem _ hc)
    simp only [Memory.insert]
    split
    · simp [Memory.read, eq_comm]
    · simp only [Memory.read, ih]
      by_cases hx : k = x
      · subst hx; simp [hk]
      · simp [hx]

/-- A read after a write gives the byte written at its own address, and what was there everywhere else. -/
theorem read_write (m : Memory) (a : Nat) (v : Byte) (x : Nat) :
    (m.write a v).read x = if x = a then v else m.read x := by
  unfold Memory.write
  split
  · next h => rw [read_erase, h]
  · rw [read_insert (erase_lists_no m a), read_erase]
    split <;> rfl

/-- Reading after a run of bytes has been stored. -/
theorem read_writeBytes (m : Memory) (a : Nat) (bs : List Byte) (x : Nat) :
    (m.writeBytes a bs).read x = if a ≤ x ∧ x < a + bs.length then bs.getD (x - a) 0 else m.read x := by
  induction bs generalizing m a with
  | nil =>
    have : ¬(a ≤ x ∧ x < a) := by omega
    simp [Memory.writeBytes, this]
  | cons b bs ih =>
    rw [Memory.writeBytes, ih, read_write]
    simp only [List.length_cons]
    rcases Nat.lt_trichotomy x a with h | h | h
    · rw [if_neg (by omega), if_neg (by omega), if_neg (by omega)]
    · subst h; rw [if_neg (by omega), if_pos rfl, if_pos (by omega)]; simp
    · obtain ⟨d, rfl⟩ : ∃ d, x = a + 1 + d := ⟨x - (a + 1), by omega⟩
      have e1 : a + 1 + d - (a + 1) = d := by omega
      have e2 : a + 1 + d - a = d + 1 := by omega
      rw [e1, e2, List.getD_cons_succ]
      by_cases hd : d < bs.length
      · rw [if_pos (by omega), if_pos (by omega)]
      · rw [if_neg (by omega), if_neg (by omega), if_neg (by omega)]

theorem wf_nil : Memory.wf [] := by simp [Memory.wf]

theorem wf_erase {m : Memory} (h : m.wf) (a : Nat) : (m.erase a).wf :=
  ⟨h.1.filter _, fun c hc => h.2 c (List.mem_of_mem_filter hc)⟩

theorem mem_insert {m : Memory} {a : Nat} {v : Byte} {c : Host.Cell} :
    c ∈ m.insert a v ↔ c = (a, v) ∨ c ∈ m := by
  induction m with
  | nil => simp [Memory.insert]
  | cons d m ih =>
    simp only [Memory.insert]
    split
    · simp
    · simp only [List.mem_cons, ih]; tauto

theorem wf_insert {m : Memory} {a : Nat} {v : Byte} (h : m.wf) (fresh : ∀ c ∈ m, c.1 ≠ a) (ha : a < 128)
    (hv : v ≠ Memory.unlisted) : (m.insert a v).wf := by
  refine ⟨?_, fun c hc => ?_⟩
  · induction m with
    | nil => simp [Memory.insert]
    | cons d m ih =>
      obtain ⟨rise, cells⟩ := h
      have below := List.pairwise_cons.1 rise
      have hd : d.1 ≠ a := fresh d List.mem_cons_self
      simp only [Memory.insert]
      split
      · next lt =>
        refine List.pairwise_cons.2 ⟨fun c hc => ?_, rise⟩
        rcases List.mem_cons.1 hc with rfl | hc
        · exact lt
        · exact lt.trans (below.1 c hc)
      · next nlt =>
        have ih := ih ⟨below.2, fun c hc => cells c (List.mem_cons_of_mem _ hc)⟩
          fun c hc => fresh c (List.mem_cons_of_mem _ hc)
        refine List.pairwise_cons.2 ⟨fun c hc => ?_, ih⟩
        rcases mem_insert.1 hc with rfl | hc
        · exact lt_of_le_of_ne (not_lt.1 nlt) hd
        · exact below.1 c hc
  · rcases mem_insert.1 hc with rfl | hc
    · exact ⟨ha, hv⟩
    · exact h.2 c hc

/-- A write to an address of `BUF` keeps the canonical form. -/
theorem wf_write {m : Memory} (h : m.wf) {a : Nat} (ha : a < 128) (v : Byte) : (m.write a v).wf := by
  unfold Memory.write
  split
  · exact wf_erase h a
  · next hv => exact wf_insert (wf_erase h a) (erase_lists_no m a) ha hv

theorem wf_writeBytes {m : Memory} (h : m.wf) {a : Nat} (bs : List Byte) (ha : a + bs.length ≤ 128) :
    (m.writeBytes a bs).wf := by
  induction bs generalizing m a with
  | nil => exact h
  | cons b bs ih =>
    simp only [List.length_cons] at ha
    exact ih (wf_write h (by omega) b) (by omega)

/-- `MemWrite` keeps the canonical form (R52). -/
theorem wf_writeLE {m m' : Memory} (h : m.wf) {addr n v : Nat} (hw : m.writeLE addr n v = some m') : m'.wf := by
  have len : ∀ n v, (leBytes n v).length = n := by
    intro n; induction n with
    | zero => intro v; rfl
    | succ n ih => intro v; simp [leBytes, ih]
  unfold Memory.writeLE at hw
  split at hw
  · cases hw; exact wf_writeBytes h _ (by rw [len]; assumption)
  · cases hw

end Sys2Proof.Machine
end

