-- ==== Sys2Proof/Laws/State.lean ====
section
/-! SUPPORT. One lemma for each field under each update of the state, each true by `rfl`, and for LOAD_KEY and what is
built on it, where the field is the same on both branches. -/

namespace Sys2Proof.Machine

variable (s : State)

/-! ## After sending a response frame -/

@[simp] theorem answered_h (status : Status) (payload : List Byte) : (s.answered status payload).h = s.h := rfl
@[simp] theorem answered_t (status : Status) (payload : List Byte) : (s.answered status payload).t = s.t := rfl
@[simp] theorem answered_buf (status : Status) (payload : List Byte) : (s.answered status payload).buf = s.buf := rfl
@[simp] theorem answered_blen (status : Status) (payload : List Byte) : (s.answered status payload).blen = s.blen := rfl
@[simp] theorem answered_nn (status : Status) (payload : List Byte) : (s.answered status payload).nn = s.nn := rfl
@[simp] theorem answered_kk (status : Status) (payload : List Byte) : (s.answered status payload).kk = s.kk := rfl
@[simp] theorem answered_phase (status : Status) (payload : List Byte) : (s.answered status payload).phase = s.phase := rfl
@[simp] theorem answered_fault (status : Status) (payload : List Byte) : (s.answered status payload).fault = s.fault := rfl
@[simp] theorem answered_commands (status : Status) (payload : List Byte) : (s.answered status payload).commands = s.commands := rfl
@[simp] theorem answered_responses (status : Status) (payload : List Byte) : (s.answered status payload).responses = s.responses ++ [⟨status, payload⟩] := rfl
@[simp] theorem answered_rst (status : Status) (payload : List Byte) : (s.answered status payload).rst = s.rst := rfl

/-! ## After the reset event -/

@[simp] theorem resetEvent_h : (resetEvent s).h = Vector.replicate 8 0 := rfl
@[simp] theorem resetEvent_t : (resetEvent s).t = 0 := rfl
@[simp] theorem resetEvent_buf : (resetEvent s).buf = [] := rfl
@[simp] theorem resetEvent_blen : (resetEvent s).blen = 0 := rfl
@[simp] theorem resetEvent_nn : (resetEvent s).nn = 0 := rfl
@[simp] theorem resetEvent_kk : (resetEvent s).kk = 0 := rfl
@[simp] theorem resetEvent_phase : (resetEvent s).phase = .idle := rfl
@[simp] theorem resetEvent_fault : (resetEvent s).fault = false := rfl
@[simp] theorem resetEvent_commands : (resetEvent s).commands = [] := rfl
@[simp] theorem resetEvent_responses : (resetEvent s).responses = s.responses := rfl
@[simp] theorem resetEvent_rst : (resetEvent s).rst = false := rfl

/-! ## After the host sending bytes -/

@[simp] theorem hostSend_h (bytes : List Byte) : (s.hostSend bytes).h = s.h := rfl
@[simp] theorem hostSend_t (bytes : List Byte) : (s.hostSend bytes).t = s.t := rfl
@[simp] theorem hostSend_buf (bytes : List Byte) : (s.hostSend bytes).buf = s.buf := rfl
@[simp] theorem hostSend_blen (bytes : List Byte) : (s.hostSend bytes).blen = s.blen := rfl
@[simp] theorem hostSend_nn (bytes : List Byte) : (s.hostSend bytes).nn = s.nn := rfl
@[simp] theorem hostSend_kk (bytes : List Byte) : (s.hostSend bytes).kk = s.kk := rfl
@[simp] theorem hostSend_phase (bytes : List Byte) : (s.hostSend bytes).phase = s.phase := rfl
@[simp] theorem hostSend_fault (bytes : List Byte) : (s.hostSend bytes).fault = s.fault := rfl
@[simp] theorem hostSend_commands (bytes : List Byte) : (s.hostSend bytes).commands = s.commands ++ bytes := rfl
@[simp] theorem hostSend_responses (bytes : List Byte) : (s.hostSend bytes).responses = s.responses := rfl
@[simp] theorem hostSend_rst (bytes : List Byte) : (s.hostSend bytes).rst = s.rst := rfl

/-! ## After the system asserting reset -/

@[simp] theorem hostReset_h : (s.hostReset).h = s.h := rfl
@[simp] theorem hostReset_t : (s.hostReset).t = s.t := rfl
@[simp] theorem hostReset_buf : (s.hostReset).buf = s.buf := rfl
@[simp] theorem hostReset_blen : (s.hostReset).blen = s.blen := rfl
@[simp] theorem hostReset_nn : (s.hostReset).nn = s.nn := rfl
@[simp] theorem hostReset_kk : (s.hostReset).kk = s.kk := rfl
@[simp] theorem hostReset_phase : (s.hostReset).phase = s.phase := rfl
@[simp] theorem hostReset_fault : (s.hostReset).fault = s.fault := rfl
@[simp] theorem hostReset_commands : (s.hostReset).commands = s.commands := rfl
@[simp] theorem hostReset_responses : (s.hostReset).responses = s.responses := rfl
@[simp] theorem hostReset_rst : (s.hostReset).rst = true := rfl

/-! ## After placing a table word -/

@[simp] theorem withFetchWord_h (nbits w : Nat) : (s.withFetchWord nbits w).h = s.h := rfl
@[simp] theorem withFetchWord_t (nbits w : Nat) : (s.withFetchWord nbits w).t = s.t := rfl
@[simp] theorem withFetchWord_buf (nbits w : Nat) : (s.withFetchWord nbits w).buf = s.buf := rfl
@[simp] theorem withFetchWord_blen (nbits w : Nat) : (s.withFetchWord nbits w).blen = s.blen := rfl
@[simp] theorem withFetchWord_nn (nbits w : Nat) : (s.withFetchWord nbits w).nn = s.nn := rfl
@[simp] theorem withFetchWord_kk (nbits w : Nat) : (s.withFetchWord nbits w).kk = s.kk := rfl
@[simp] theorem withFetchWord_phase (nbits w : Nat) : (s.withFetchWord nbits w).phase = s.phase := rfl
@[simp] theorem withFetchWord_fault (nbits w : Nat) : (s.withFetchWord nbits w).fault = s.fault := rfl
@[simp] theorem withFetchWord_commands (nbits w : Nat) : (s.withFetchWord nbits w).commands = tableFrame nbits w ++ s.commands := rfl
@[simp] theorem withFetchWord_responses (nbits w : Nat) : (s.withFetchWord nbits w).responses = s.responses := rfl
@[simp] theorem withFetchWord_rst (nbits w : Nat) : (s.withFetchWord nbits w).rst = false := rfl

/-! ## After INIT_STATE (R141) -/

@[simp] theorem initState_h (nn kk : BitVec 7) : (initState nn kk s).h = initialChain nn kk := rfl
@[simp] theorem initState_t (nn kk : BitVec 7) : (initState nn kk s).t = s.t := rfl
@[simp] theorem initState_buf (nn kk : BitVec 7) : (initState nn kk s).buf = s.buf := rfl
@[simp] theorem initState_blen (nn kk : BitVec 7) : (initState nn kk s).blen = s.blen := rfl
@[simp] theorem initState_nn (nn kk : BitVec 7) : (initState nn kk s).nn = s.nn := rfl
@[simp] theorem initState_kk (nn kk : BitVec 7) : (initState nn kk s).kk = s.kk := rfl
@[simp] theorem initState_phase (nn kk : BitVec 7) : (initState nn kk s).phase = s.phase := rfl
@[simp] theorem initState_fault (nn kk : BitVec 7) : (initState nn kk s).fault = s.fault := rfl
@[simp] theorem initState_commands (nn kk : BitVec 7) : (initState nn kk s).commands = s.commands := rfl
@[simp] theorem initState_responses (nn kk : BitVec 7) : (initState nn kk s).responses = s.responses := rfl
@[simp] theorem initState_rst (nn kk : BitVec 7) : (initState nn kk s).rst = s.rst := rfl

/-! ## After compressing an interior block (R143) -/

@[simp] theorem compressInterior_h : (compressInterior s).h = compress s.h (formBlock s) (s.t + 128) false := rfl
@[simp] theorem compressInterior_t : (compressInterior s).t = s.t + 128 := rfl
@[simp] theorem compressInterior_buf : (compressInterior s).buf = s.buf := rfl
@[simp] theorem compressInterior_blen : (compressInterior s).blen = 0 := rfl
@[simp] theorem compressInterior_nn : (compressInterior s).nn = s.nn := rfl
@[simp] theorem compressInterior_kk : (compressInterior s).kk = s.kk := rfl
@[simp] theorem compressInterior_phase : (compressInterior s).phase = s.phase := rfl
@[simp] theorem compressInterior_fault : (compressInterior s).fault = s.fault := rfl
@[simp] theorem compressInterior_commands : (compressInterior s).commands = s.commands := rfl
@[simp] theorem compressInterior_responses : (compressInterior s).responses = s.responses := rfl
@[simp] theorem compressInterior_rst : (compressInterior s).rst = s.rst := rfl

/-! ## After buffering one byte (R143) -/

@[simp] theorem bufferByte_h (n : Fin 128) (b : Byte) : (bufferByte n b s).h = s.h := rfl
@[simp] theorem bufferByte_t (n : Fin 128) (b : Byte) : (bufferByte n b s).t = s.t := rfl
@[simp] theorem bufferByte_buf (n : Fin 128) (b : Byte) : (bufferByte n b s).buf = s.buf.write n.val b := rfl
@[simp] theorem bufferByte_blen (n : Fin 128) (b : Byte) : (bufferByte n b s).blen = n.succ := rfl
@[simp] theorem bufferByte_nn (n : Fin 128) (b : Byte) : (bufferByte n b s).nn = s.nn := rfl
@[simp] theorem bufferByte_kk (n : Fin 128) (b : Byte) : (bufferByte n b s).kk = s.kk := rfl
@[simp] theorem bufferByte_phase (n : Fin 128) (b : Byte) : (bufferByte n b s).phase = s.phase := rfl
@[simp] theorem bufferByte_fault (n : Fin 128) (b : Byte) : (bufferByte n b s).fault = s.fault := rfl
@[simp] theorem bufferByte_commands (n : Fin 128) (b : Byte) : (bufferByte n b s).commands = s.commands := rfl
@[simp] theorem bufferByte_responses (n : Fin 128) (b : Byte) : (bufferByte n b s).responses = s.responses := rfl
@[simp] theorem bufferByte_rst (n : Fin 128) (b : Byte) : (bufferByte n b s).rst = s.rst := rfl

/-! ## After the last compression (R148) -/

@[simp] theorem compressLast_h : (compressLast s).h = compress s.h (formBlock s) (s.t + BitVec.ofNat 128 s.blen.val) true := rfl
@[simp] theorem compressLast_t : (compressLast s).t = s.t + BitVec.ofNat 128 s.blen.val := rfl
@[simp] theorem compressLast_buf : (compressLast s).buf = s.buf := rfl
@[simp] theorem compressLast_blen : (compressLast s).blen = s.blen := rfl
@[simp] theorem compressLast_nn : (compressLast s).nn = s.nn := rfl
@[simp] theorem compressLast_kk : (compressLast s).kk = s.kk := rfl
@[simp] theorem compressLast_phase : (compressLast s).phase = .finalized := rfl
@[simp] theorem compressLast_fault : (compressLast s).fault = s.fault := rfl
@[simp] theorem compressLast_commands : (compressLast s).commands = s.commands := rfl
@[simp] theorem compressLast_responses : (compressLast s).responses = s.responses := rfl
@[simp] theorem compressLast_rst : (compressLast s).rst = s.rst := rfl

/-! ## After LOAD_KEY (R142) and the opening of a session (R146) -/

@[simp] theorem loadKey_h (key : List Byte) : (loadKey key s).h = s.h := by
  unfold loadKey; split <;> rfl

@[simp] theorem loadKey_nn (key : List Byte) : (loadKey key s).nn = s.nn := by
  unfold loadKey; split <;> rfl

@[simp] theorem loadKey_kk (key : List Byte) : (loadKey key s).kk = s.kk := by
  unfold loadKey; split <;> rfl

@[simp] theorem loadKey_phase (key : List Byte) : (loadKey key s).phase = s.phase := by
  unfold loadKey; split <;> rfl

@[simp] theorem loadKey_fault (key : List Byte) : (loadKey key s).fault = s.fault := by
  unfold loadKey; split <;> rfl

@[simp] theorem loadKey_commands (key : List Byte) : (loadKey key s).commands = s.commands := by
  unfold loadKey; split <;> rfl

@[simp] theorem loadKey_responses (key : List Byte) : (loadKey key s).responses = s.responses := by
  unfold loadKey; split <;> rfl

@[simp] theorem loadKey_rst (key : List Byte) : (loadKey key s).rst = s.rst := by
  unfold loadKey; split <;> rfl

@[simp] theorem loadKey_t (key : List Byte) : (loadKey key s).t = 0 := by
  unfold loadKey; split <;> rfl

@[simp] theorem openSession_h (nn : BitVec 7) (key : List Byte) : (openSession nn key s).h = initialChain nn (keyLength key) := by
  simp [openSession]

@[simp] theorem openSession_t (nn : BitVec 7) (key : List Byte) : (openSession nn key s).t = 0 := by
  simp [openSession]

@[simp] theorem openSession_nn (nn : BitVec 7) (key : List Byte) : (openSession nn key s).nn = nn := by
  simp [openSession]

@[simp] theorem openSession_kk (nn : BitVec 7) (key : List Byte) : (openSession nn key s).kk = keyLength key := by
  simp [openSession]

@[simp] theorem openSession_phase (nn : BitVec 7) (key : List Byte) : (openSession nn key s).phase = .opened := by
  simp [openSession]

@[simp] theorem openSession_fault (nn : BitVec 7) (key : List Byte) : (openSession nn key s).fault = s.fault := by
  simp [openSession]

@[simp] theorem openSession_commands (nn : BitVec 7) (key : List Byte) : (openSession nn key s).commands = s.commands := by
  simp [openSession]

@[simp] theorem openSession_responses (nn : BitVec 7) (key : List Byte) : (openSession nn key s).responses = s.responses := by
  simp [openSession]

@[simp] theorem openSession_rst (nn : BitVec 7) (key : List Byte) : (openSession nn key s).rst = s.rst := by
  simp [openSession]

theorem openSession_blen (nn : BitVec 7) (key : List Byte) :
    (openSession nn key s).blen = if key = [] then 0 else 128 := by
  cases key <;> rfl

theorem openSession_buf (nn : BitVec 7) (key : List Byte) :
    (openSession nn key s).buf = if key = [] then s.buf else s.buf.writeBytes 0 (paddedKey key) := by
  cases key <;> rfl

end Sys2Proof.Machine
end

