-- ==== Sys2Proof/Laws/Session.lean ====
section
/-! SUPPORT. What the session's helper operations do (spec/41_session_commands.md R141 to R145): one lemma for each, which
proofs cite instead of unfolding it. -/

namespace Sys2Proof.Machine

/-! ## ABSORB (R143) -/

/-- With room in the buffer, ABSORB stores one byte and touches nothing else. -/
theorem absorb_room {s : State} (room : s.blen.val < 128) (b : Byte) :
    absorb s b = bufferByte ⟨s.blen.val, room⟩ b s := by
  simp [absorb, room]

/-- With a full buffer, ABSORB compresses it first. -/
theorem absorb_full {s : State} (full : s.blen.val = 128) (b : Byte) :
    absorb s b = bufferByte 0 b (compressInterior s) := by
  simp [absorb, full]

theorem blen_le (s : State) : s.blen.val ≤ 128 := by omega

theorem room_or_full (s : State) : s.blen.val < 128 ∨ s.blen.val = 128 := by
  have := blen_le s; omega

theorem absorb_frame (s : State) (b : Byte) :
    (absorb s b).nn = s.nn ∧ (absorb s b).kk = s.kk ∧ (absorb s b).phase = s.phase ∧ (absorb s b).fault = s.fault
      ∧ (absorb s b).commands = s.commands ∧ (absorb s b).responses = s.responses ∧ (absorb s b).rst = s.rst := by
  rcases room_or_full s with h | h
  · simp [absorb_room h]
  · simp [absorb_full h]

/-- After ABSORB at least one byte is pending (R143). -/
theorem absorb_blen_pos (s : State) (b : Byte) : 1 ≤ (absorb s b).blen.val := by
  rcases room_or_full s with h | h
  · simp [absorb_room h]
  · simp [absorb_full h]

/-- ABSORB adds one byte to `T + BLEN` (R35 item 5), as long as the counter does not wrap, and keeps `T` a multiple of
128. -/
theorem absorb_counts {s : State} (b : Byte) (fits : s.t.toNat + s.blen.val < 2 ^ 128) :
    (absorb s b).t.toNat + (absorb s b).blen.val = s.t.toNat + s.blen.val + 1
      ∧ (s.t.toNat % 128 = 0 → (absorb s b).t.toNat % 128 = 0) := by
  rcases room_or_full s with h | h
  · simp [absorb_room h]; omega
  · have t : (s.t + 128).toNat = s.t.toNat + 128 := by
      rw [BitVec.toNat_add]; exact Nat.mod_eq_of_lt (by simpa [h] using fits)
    simp only [absorb_full h, bufferByte_t, bufferByte_blen, compressInterior_t, t, h]
    exact ⟨by simp, by omega⟩

theorem absorb_wf {s : State} (h : s.buf.wf) (b : Byte) : (absorb s b).buf.wf := by
  rcases room_or_full s with r | r
  · rw [absorb_room r, bufferByte_buf]; exact wf_write h r b
  · rw [absorb_full r, bufferByte_buf]; exact wf_write h (by decide) b

/-! ## ABSORB over a data sequence (R147, R153) -/

@[simp] theorem absorbAll_nil (s : State) : absorbAll s [] = s := rfl

@[simp] theorem absorbAll_cons (s : State) (b : Byte) (bs : List Byte) :
    absorbAll s (b :: bs) = absorbAll (absorb s b) bs := rfl

theorem absorbAll_append (s : State) (as bs : List Byte) :
    absorbAll s (as ++ bs) = absorbAll (absorbAll s as) bs := List.foldl_append

theorem absorbAll_frame (s : State) (data : List Byte) :
    (absorbAll s data).nn = s.nn ∧ (absorbAll s data).kk = s.kk ∧ (absorbAll s data).phase = s.phase
      ∧ (absorbAll s data).fault = s.fault ∧ (absorbAll s data).commands = s.commands
      ∧ (absorbAll s data).responses = s.responses ∧ (absorbAll s data).rst = s.rst := by
  induction data generalizing s with
  | nil => simp
  | cons b bs ih =>
    obtain ⟨h1, h2, h3, h4, h5, h6, h7⟩ := ih (absorb s b)
    obtain ⟨g1, g2, g3, g4, g5, g6, g7⟩ := absorb_frame s b
    exact ⟨h1.trans g1, h2.trans g2, h3.trans g3, h4.trans g4, h5.trans g5, h6.trans g6, h7.trans g7⟩

/-- Absorbing adds the data's length to `T + BLEN`, keeps `T` a multiple of 128 and `BUF` canonical, and leaves a byte
pending if there was one or one was absorbed (R35). -/
theorem absorbAll_counts {s : State} (data : List Byte) (fits : s.t.toNat + s.blen.val + data.length < 2 ^ 128) :
    (absorbAll s data).t.toNat + (absorbAll s data).blen.val = s.t.toNat + s.blen.val + data.length
      ∧ (s.t.toNat % 128 = 0 → (absorbAll s data).t.toNat % 128 = 0)
      ∧ (1 ≤ s.blen.val ∨ data ≠ [] → 1 ≤ (absorbAll s data).blen.val) := by
  induction data generalizing s with
  | nil => simp
  | cons b bs ih =>
    simp only [List.length_cons] at fits
    have one := absorb_counts b (show s.t.toNat + s.blen.val < 2 ^ 128 by omega)
    have all := ih (s := absorb s b) (by omega)
    simp only [absorbAll_cons, List.length_cons]
    exact ⟨by omega, fun h => all.2.1 (one.2 h), fun _ => all.2.2 (.inl (absorb_blen_pos s b))⟩

theorem absorbAll_wf {s : State} (h : s.buf.wf) (data : List Byte) : (absorbAll s data).buf.wf := by
  induction data generalizing s with
  | nil => exact h
  | cons b bs ih => exact ih (absorb_wf h b)

/-- ABSORB neither reads nor writes the response stream. -/
theorem absorbAll_responses (s : State) (sent : List Response) (data : List Byte) :
    absorbAll { s with responses := sent } data = { absorbAll s data with responses := sent } := by
  induction data generalizing s with
  | nil => rfl
  | cons b bs ih =>
    have one : absorb { s with responses := sent } b = { absorb s b with responses := sent } := by
      simp only [absorb]; split <;> rfl
    rw [absorbAll_cons, absorbAll_cons, one, ih]

/-! ## FORM_BLOCK and the block view (R53, R144) -/

/-- A block depends on its 128 bytes only. -/
theorem blockOf_congr {f g : Nat → Byte} (h : ∀ k < 128, f k = g k) : blockOf f = blockOf g := by
  refine congrArg Vector.ofFn (funext fun i => congrArg (fun l => BitVec.ofNat 64 (leValue l)) ?_)
  exact List.map_congr_left fun j hj => h _ (by have := List.mem_range.1 hj; omega)

/-- FORM_BLOCK uses the pending bytes only, so stale bytes of `BUF` do not matter (R205). -/
theorem formBlock_congr {s t : State} (len : s.blen = t.blen) (same : ∀ k < s.blen.val, s.buf.read k = t.buf.read k) :
    formBlock s = formBlock t := by
  unfold formBlock
  apply blockOf_congr
  intro k _
  simp only [pendingByte, ← len]
  split
  · next h => exact same k h
  · rfl

/-! ## INIT_STATE, LOAD_KEY and the opening of a session (R141, R142, R146) -/

theorem openSession_wf {s : State} (h : s.buf.wf) (nn : BitVec 7) {key : List Byte} (short : key.length ≤ 128) :
    (openSession nn key s).buf.wf := by
  rw [openSession_buf]
  split
  · exact h
  · exact wf_writeBytes h _ (by rw [paddedKey_length short])

/-- The buffer a session opens with: the key block, or what was there (R142). -/
theorem openSession_read (s : State) (nn : BitVec 7) {key : List Byte} (short : key.length ≤ 128) {a : Nat} (ha : a < 128) :
    (openSession nn key s).buf.read a = if key = [] then s.buf.read a else key.getD a 0 := by
  rw [openSession_buf]
  split
  · rfl
  · rw [read_writeBytes, paddedKey_length short, if_pos (by omega), Nat.sub_zero, paddedKey_getD]

/-! ## SERIALIZE (R145) -/

theorem wordBytes_length (w : Word) : (wordBytes w).length = 8 := by simp [wordBytes]

theorem chainBytes_length (h : Chain) : (chainBytes h).length = 64 := by
  have : ∀ l : List Word, (l.flatMap wordBytes).length = 8 * l.length := by
    intro l
    induction l with
    | nil => rfl
    | cons w l ih => rw [List.flatMap_cons, List.length_append, wordBytes_length, ih, List.length_cons]; omega
  rw [chainBytes, this, Vector.length_toList]

/-- The digest has `NN` bytes (R155). -/
theorem serialize_length {s : State} (h : s.nn.toNat ≤ 64) : (serialize s).length = s.nn.toNat := by
  rw [serialize, List.length_take, chainBytes_length]; omega

end Sys2Proof.Machine
end

