-- ==== Sys2Proof/Laws/Commands.lean ====
section
/-! SUPPORT. One inversion lemma for each command: everything it can do (spec/41_session_commands.md R146 to R150). While
`FAULT = 1` none of them has a next state (R31). -/

namespace Sys2Proof.Machine

/-- While `FAULT = 1` no command has a step (R31). -/
theorem exec_halted {s : State} (h : s.fault = true) (i : Instr) : exec i s = .fault .counterOverflow := by
  cases i <;> simp [exec, execInit, execUpdate, execFinalize, execHash, execReserved, inService, h]

theorem configIllegal_iff {nn : BitVec 7} {key : List Byte} :
    configIllegal nn key = true ↔ nn.toNat < 1 ∨ 64 < nn.toNat ∨ 64 < key.length := by
  simp [configIllegal, or_assoc]

theorem configLegal_iff {nn : BitVec 7} {key : List Byte} :
    configIllegal nn key = false ↔ 1 ≤ nn.toNat ∧ nn.toNat ≤ 64 ∧ key.length ≤ 64 := by
  rw [← Bool.not_eq_true, configIllegal_iff]; omega

theorem sessionClosed_iff {s : State} : sessionClosed s = true ↔ s.phase ≠ .opened := by
  simp [sessionClosed]

theorem counterExceeded_iff {s : State} {n : Nat} :
    counterExceeded s n = true ↔ 2 ^ 128 ≤ s.t.toNat + s.blen.val + n := by
  simp only [counterExceeded, decide_eq_true_eq]; omega

theorem execInit_cases {nn : BitVec 7} {key : List Byte} {s t : State} (h : execInit nn key s = .next t) :
    s.fault = false ∧
      ((configIllegal nn key = true ∧ t = s.answered .configError [])
        ∨ (configIllegal nn key = false ∧ t = (openSession nn key s).answered .ok [])) := by
  unfold execInit inService at h
  split at h
  · cases h
  · next f =>
    refine ⟨by simpa using f, ?_⟩
    split at h
    · next c => exact .inl ⟨c, by cases h; rfl⟩
    · next c => exact .inr ⟨by simpa using c, by cases h; rfl⟩

theorem execUpdate_cases {data : List Byte} {s t : State} (h : execUpdate data s = .next t) :
    s.fault = false ∧
      ((s.phase ≠ .opened ∧ t = s.answered .sessionClosed [])
        ∨ (s.phase = .opened ∧ counterExceeded s data.length = true ∧ t = { s with fault := true })
        ∨ (s.phase = .opened ∧ counterExceeded s data.length = false ∧ t = (absorbAll s data).answered .ok [])) := by
  unfold execUpdate inService at h
  split at h
  · cases h
  · next f =>
    refine ⟨by simpa using f, ?_⟩
    split at h
    · next c => exact .inl ⟨sessionClosed_iff.1 c, by cases h; rfl⟩
    · next c =>
      have o : s.phase = .opened := by simpa [sessionClosed] using c
      split at h
      · next e => exact .inr (.inl ⟨o, e, by cases h; rfl⟩)
      · next e => exact .inr (.inr ⟨o, by simpa using e, by cases h; rfl⟩)

theorem execFinalize_cases {s t : State} (h : execFinalize s = .next t) :
    s.fault = false ∧
      ((s.phase ≠ .opened ∧ t = s.answered .sessionClosed [])
        ∨ (s.phase = .opened ∧ t = (compressLast s).answered .ok (serialize (compressLast s)))) := by
  unfold execFinalize inService at h
  split at h
  · cases h
  · next f =>
    refine ⟨by simpa using f, ?_⟩
    split at h
    · next c => exact .inl ⟨sessionClosed_iff.1 c, by cases h; rfl⟩
    · next c => exact .inr ⟨by simpa [sessionClosed] using c, by cases h; rfl⟩

/-- The state HASH leaves before it answers (R149). -/
abbrev hashed (nn : BitVec 7) (key data : List Byte) (s : State) : State :=
  compressLast (absorbAll (openSession nn key s) data)

theorem execHash_cases {nn : BitVec 7} {key data : List Byte} {s t : State} (h : execHash nn key data s = .next t) :
    s.fault = false ∧
      ((configIllegal nn key = true ∧ t = s.answered .configError [])
        ∨ (configIllegal nn key = false
            ∧ t = (hashed nn key data s).answered .ok (serialize (hashed nn key data s)))) := by
  unfold execHash inService at h
  split at h
  · cases h
  · next f =>
    refine ⟨by simpa using f, ?_⟩
    split at h
    · next c => exact .inl ⟨c, by cases h; rfl⟩
    · next c => exact .inr ⟨by simpa using c, by cases h; rfl⟩

theorem execReserved_cases {hd : Header} {p : List Byte} {s t : State} (h : execReserved hd p s = .next t) :
    s.fault = false ∧ t = s.answered .illegalCommand [] := by
  unfold execReserved inService at h
  split at h
  · cases h
  · next f => exact ⟨by simpa using f, by cases h; rfl⟩

end Sys2Proof.Machine
end

