-- ==== Sys2Proof/Laws/PerInstr.lean ====
section
/-! SUPPORT. Laws made for each command: the decoder's frame length of an encoded command is the length of its frame,
whatever bytes follow it (spec/30_encoding.md R77). -/

namespace Sys2Proof.Laws.FrameLength

open Sys2Proof Sys2Proof.Machine

/-- A well-formed command's frame is as long as R77 says. -/
def Statement (i : Instr) : Prop := i.wf = true → ∀ rest, frameLength (encode i ++ rest) = .ok (encode i).length

theorem lengthField_value {data : List Byte} (h : data.length < 2 ^ 64) (rest : List Byte) :
    leValue ((lengthField data ++ rest).take 8) = data.length := by
  rw [List.take_left' (by simp [lengthField]), lengthField, leValue_leBytes, Nat.mod_eq_of_lt (by omega)]

theorem keyLength_toNat {key : List Byte} (h : key.length < 2 ^ 7) : (keyLength key).toNat = key.length := by
  rw [keyLength, BitVec.toNat_ofNat, Nat.mod_eq_of_lt h]

theorem drop_header (h : Header) (rest : List Byte) : (h.toBytes ++ rest).drop 4 = rest :=
  List.drop_left' (by simp)

theorem init (nn : BitVec 7) (key : List Byte) : Statement (.init nn key) := by
  intro wf rest
  have hk : key.length < 2 ^ 7 := by simpa [Instr.wf, keyFits] using wf
  have long : ¬(Header.toBytes ⟨1, nn, keyLength key, 0⟩ ++ (key ++ rest)).length < 4 := by simp
  simp [frameLength, encode, List.append_assoc, keyLength_toNat hk]

theorem update (data : List Byte) : Statement (.update data) := by
  intro wf rest
  have hd : data.length < 2 ^ 64 := by simpa [Instr.wf, dataFits] using wf
  have len : ¬ 4 + (8 + (data.length + rest.length)) < 12 := by omega
  simp only [frameLength, encode, List.append_assoc, Header.ofBytes_toBytes, drop_header, lengthField_value hd]
  simp [lengthField, len]; omega

theorem finalize : Statement .finalize := by
  intro _ rest
  simp [frameLength, encode]

theorem hash (nn : BitVec 7) (key data : List Byte) : Statement (.hash nn key data) := by
  intro wf rest
  obtain ⟨hk, hd⟩ : key.length < 2 ^ 7 ∧ data.length < 2 ^ 64 := by simpa [Instr.wf, keyFits, dataFits] using wf
  have split : ∀ tail : List Byte, (Header.toBytes ⟨4, nn, keyLength key, 0⟩ ++ (key ++ tail)).drop (4 + key.length) = tail := by
    intro tail
    rw [← List.append_assoc]
    exact List.drop_left' (by simp)
  simp only [frameLength, encode, List.append_assoc, Header.ofBytes_toBytes, keyLength_toNat hk, split,
    lengthField_value hd]
  have len : ¬ 4 + (key.length + (8 + (data.length + rest.length))) < 4 + key.length + 8 := by omega
  simp [lengthField, len]; omega

theorem reserved (h : Header) (p : List Byte) : Statement (.reserved h p) := by
  intro wf rest
  have fits : h.payloadFits p = true := by
    have := wf; simp only [Instr.wf, Bool.and_eq_true] at this; exact this.2
  have drop : ∀ k, (h.toBytes ++ (p ++ rest)).drop (4 + k) = (p ++ rest).drop k := by
    intro k; rw [← List.drop_drop, drop_header]
  simp only [frameLength, encode, List.append_assoc, Header.ofBytes_toBytes, drop_header, drop]
  simp only [Header.payloadFits] at fits
  simp only [List.length_append, Header.toBytes_length]
  rw [if_neg (by omega)]
  split at fits
  · next h1 => simp [h1] at fits ⊢; omega
  · next h1 =>
    split at fits
    · next h2 =>
      simp only [Bool.and_eq_true, decide_eq_true_eq, beq_iff_eq] at fits
      have take : (p ++ rest).take 8 = p.take 8 := List.take_append_of_le_length fits.1
      rw [if_neg h1, if_pos h2, if_neg (by omega), take]
      congr 1; omega
    · next h2 =>
      split at fits
      · next h4 =>
        simp only [Bool.and_eq_true, decide_eq_true_eq, beq_iff_eq] at fits
        have take : ((p ++ rest).drop h.kkf.toNat).take 8 = (p.drop h.kkf.toNat).take 8 := by
          rw [List.drop_append_of_le_length (by omega)]
          exact List.take_append_of_le_length (by rw [List.length_drop]; omega)
        rw [if_neg h1, if_neg h2, if_pos h4, if_neg (by omega), take]
        congr 1; omega
      · next h4 =>
        rw [if_neg h1, if_neg h2, if_neg h4]
        simp at fits; simp [fits]

end Sys2Proof.Laws.FrameLength
end

