-- ==== Sys2Proof/Laws/Step.lean ====
section
/-! SUPPORT. Everything one step can do (spec/20_memory.md R61, 41_session_commands.md R140, 70_reset_and_hazards.md R200):
the lemma that claims about every step begin with. -/

namespace Sys2Proof.Machine

/-- If a step has a next state, it took the reset event, or was idle, or ran the command at the front of the stream. -/
theorem step_cases {s t : State} (h : step s = .next t) :
    (s.rst = true ∧ t = resetEvent s)
      ∨ (s.rst = false ∧ s.fault = false ∧ s.commands = [] ∧ t = s)
      ∨ (s.rst = false ∧ s.fault = false
          ∧ ∃ i rest, decode s.commands = .ok (i, rest) ∧ exec i { s with commands := rest } = .next t) := by
  unfold step turn at h
  by_cases r : s.rst = true
  · rw [if_pos r] at h; exact .inl ⟨r, by cases h; rfl⟩
  · have r' : s.rst = false := by simpa using r
    rw [if_neg r] at h
    by_cases f : s.fault = true
    · rw [if_pos f] at h; cases h
    · have f' : s.fault = false := by simpa using f
      rw [if_neg f] at h
      refine .inr ?_
      cases c : s.commands with
      | nil => rw [c] at h; exact .inl ⟨r', f', rfl, by cases h; rfl⟩
      | cons b bs =>
        rw [c] at h
        simp only at h
        cases d : decode (b :: bs) with
        | error e => rw [d] at h; cases h
        | ok p => rw [d] at h; exact .inr ⟨r', f', p.1, p.2, rfl, h⟩

theorem run_next {s t : State} (h : step s = .next t) (n : Nat) : run (n + 1) s = run n t := by
  simp only [run, h]

/-- The runs of the claims are the host's runs. -/
theorem run_eq_host_run (n : Nat) (s : State) : run n s = Host.Core.run core n s := by
  induction n generalizing s with
  | zero => rfl
  | succ n ih =>
    have e : core.step s = step s := rfl
    cases h : step s with
    | next t => rw [run_next h, ih]; simp only [Host.Core.run, e.trans h]; rfl
    | fault r => simp only [run, h, Host.Core.run, e.trans h]; rfl
    | refused r => simp only [run, h, Host.Core.run, e.trans h]; rfl

/-- What holds at a state and is kept by every step holds after every run: each safety claim is then two small goals. -/
theorem run_keeps {P : State → Prop} (keeps : ∀ s t, P s → step s = .next t → P t) {n : Nat} {s t : State} (hs : P s)
    (h : run n s = .next t) : P t := by
  induction n generalizing s with
  | zero => cases h; exact hs
  | succ n ih =>
    cases o : step s with
    | next u => rw [run_next o] at h; exact ih (keeps s u hs o) h
    | fault r => simp [run, o] at h
    | refused r => simp [run, o] at h

end Sys2Proof.Machine
end

