-- ==== Sys2Proof/Tests/Slice0.lean ====
section
/-! SUPPORT. The model's own tests. Expected values come from spec/95_test_vectors.md and spec/30_encoding.md R71, R85,
named at each. Then one witness for the hypotheses of each statement that has some. -/

namespace Sys2Proof.Tests

open Sys2Proof Sys2Proof.Machine

/-- The next state of an outcome, if it has one. -/
def nextOf : Host.Outcome State Fault Refusal → Option State
  | .next s => some s
  | _ => none

/-- Whether the outcome is a stop. -/
def stops : Host.Outcome State Fault Refusal → Bool
  | .next _ => false
  | _ => true

/-- An open, unkeyed 64-byte session with no data (95_test_vectors.md P1, command 1). -/
def opened : State := openSession 64 [] State.reset

def abc : List Byte := [0x61, 0x62, 0x63]

/-- The state of X13: `T = 2^128 - 256`, `BLEN = 128`. -/
def nearlyFull : State := { opened with t := BitVec.ofNat 128 (2 ^ 128 - 256), blen := 128 }

/-- A session with room in the counter for one more byte: `T + BLEN = 2^128 - 2`. -/
def brimful : State := { opened with t := BitVec.ofNat 128 (2 ^ 128 - 128), blen := 126 }

/-- A zero byte string. -/
def zeros (n : Nat) : List Byte := List.replicate n 0

/-- The step's state after a session that still holds a byte string in its stream. -/
def waiting (s : State) (bytes : List Byte) : State := s.hostSend bytes

/-! ## WellFormed refuses an ill-formed term for each check -/

theorem test_wf_init_key_too_long : (Instr.init 64 (zeros 128)).wf = false := by simp [Instr.wf, keyFits, zeros]

theorem test_wf_update_data_too_long (data : List Byte) (h : data.length = 2 ^ 64) : (Instr.update data).wf = false := by
  simp [Instr.wf, dataFits, h]

theorem test_wf_hash_key_too_long : (Instr.hash 64 (zeros 128) []).wf = false := by simp [Instr.wf, keyFits, zeros]

theorem test_wf_hash_data_too_long (data : List Byte) (h : data.length = 2 ^ 64) : (Instr.hash 64 [] data).wf = false := by
  simp [Instr.wf, dataFits, h]

theorem test_wf_reserved_legal_header : (Instr.reserved ⟨3, 0, 0, 0⟩ []).wf = false := by decide

theorem test_wf_reserved_payload_of_reserved_op : (Instr.reserved ⟨5, 0, 0, 0⟩ [0]).wf = false := by decide

theorem test_wf_reserved_payload_of_init : (Instr.reserved ⟨1, 64, 2, 1⟩ [0]).wf = false := by decide

theorem test_wf_reserved_payload_of_update :
    (Instr.reserved ⟨2, 1, 0, 0⟩ (zeros 7)).wf = false ∧ (Instr.reserved ⟨2, 1, 0, 0⟩ (1 :: zeros 7)).wf = false := by decide

theorem test_wf_reserved_payload_of_hash :
    (Instr.reserved ⟨4, 1, 1, 1⟩ (zeros 8)).wf = false ∧ (Instr.reserved ⟨4, 1, 1, 1⟩ (zeros 10)).wf = false := by decide

/-! ## Decoding: header words written out from R71, `RSV[31:18] KKF[17:11] NNF[10:4] OP[3:0]` -/

theorem test_decode_init_word :
    decodeTableWord 32 0b00000000000000_0000000_1000000_0001 = some (.init 64 []) := by decide

theorem test_decode_init_word_with_key :
    decodeTableWord 32 0b00000000000000_0000011_0100000_0001 = some (.init 32 [0, 0, 0]) := by decide

theorem test_decode_update_word :
    decodeTableWord 32 0b00000000000000_0000000_0000000_0010 = some (.update []) := by decide

theorem test_decode_finalize_word :
    decodeTableWord 32 0b00000000000000_0000000_0000000_0011 = some .finalize := by decide

theorem test_decode_hash_word :
    decodeTableWord 32 0b00000000000000_0000001_0000001_0100 = some (.hash 1 [0] []) := by decide

theorem test_decode_reserved_op_word :
    decodeTableWord 32 0b00000000000000_0000000_0000000_0101 = some (.reserved ⟨5, 0, 0, 0⟩ []) := by decide

/-- X8: `01040400`, INIT 64 with `RSV[18] = 1`. -/
theorem test_decode_reserved_rsv_word :
    decodeTableWord 32 0b00000000000001_0000000_1000000_0001 = some (.reserved ⟨1, 64, 0, 1⟩ []) := by decide

/-- X7: `12000000 0000000000000000`, UPDATE with `NNF = 1`; the whole frame is consumed. -/
theorem test_decode_reserved_update_frame :
    decode ([0x12, 0, 0, 0] ++ zeros 8 ++ [0x03]) = .ok (.reserved ⟨2, 1, 0, 0⟩ (zeros 8), [0x03]) := by decide

/-- R85: `HASH 1, "abc"` with a key byte before `LEN` (R76). -/
theorem test_decode_hash_frame :
    decode ([0x14, 0x08, 0, 0, 0xAA, 0x03, 0, 0, 0, 0, 0, 0, 0] ++ abc ++ [0x99]) = .ok (.hash 1 [0xAA] abc, [0x99]) := by
  decide

theorem test_decode_truncated :
    decode [0x01, 0x04] = .error .header ∧ decode [0x02, 0, 0, 0, 1] = .error .length
      ∧ decode [0x01, 0x08, 0, 0] = .error .payload := by decide

theorem test_encode_init_example : encode (.init 65 []) = [0x11, 0x04, 0x00, 0x00] := by decide

/-! ## One step of each command -/

/-- R146's example: `INIT 64`. -/
theorem test_init_64 :
    (nextOf (step (State.reset.withFetchWord 32 0x401))).map (fun t => (t.h[0], t.phase, t.responses))
      = some (0x6A09E667F2BDC948, .opened, [⟨.ok, []⟩]) := by decide

/-- X4: `INIT 64, key=<65 zero bytes>` in any phase. -/
theorem test_init_key_too_long :
    (nextOf (exec (.init 64 (zeros 65)) opened)).map (fun t => (t.kk, t.responses)) = some (0, [⟨.configError, []⟩]) := by
  decide

/-- X13: the counter's range. -/
theorem test_update_counter_overflow :
    (nextOf (exec (.update (zeros 128)) nearlyFull)).map (fun t => (t.fault, t.blen, t.responses)) = some (true, 128, []) := by
  decide +kernel

/-- X1: FINALIZE after reset. -/
theorem test_finalize_after_reset :
    (nextOf (step (State.reset.withFetchWord 32 0x3))).map (·.responses) = some [⟨.sessionClosed, []⟩] := by decide

/-- X5: a reserved `OP` on an open session. -/
theorem test_reserved_op :
    (nextOf (step (opened.withFetchWord 32 0x5))).map (fun t => (t.phase, t.responses))
      = some (.opened, [⟨.illegalCommand, []⟩]) := by decide

/-- X15: no step while `FAULT = 1`, and reset clears it. -/
theorem test_fault_halts :
    stops (step { opened with fault := true, commands := [0x03, 0, 0, 0] }) = true
      ∧ (nextOf (step (State.hostReset { opened with fault := true }))).map (fun t => (t.fault, t.phase))
          = some (false, .idle) := by decide

/-- R77: no step for a byte string that ends inside a frame. -/
theorem test_incomplete_frame_refused : stops (step (waiting opened [0x02, 0, 0])) = true := by decide

/-! ## The engine's vectors (95_test_vectors.md 2.1, 2.2) -/

theorem test_rotr :
    rotr64 0x0123456789ABCDEF 32 = 0x89ABCDEF01234567 ∧ rotr64 0x0123456789ABCDEF 16 = 0xCDEF0123456789AB
      ∧ rotr64 0x0123456789ABCDEF 63 = 0x02468ACF13579BDE := by decide

/-- Row "y only": the row that the source's losing seventh step would change (90_conflicts.md C1). -/
theorem test_mixG_y_only :
    mixG 0 4 8 12 0 1 (Vector.replicate 16 0)
      = ((((Vector.replicate 16 0).set 0 1).set 4 0x0002000000000000).set 8 0x0001000000000000).set 12 0x0001000000000000 := by
  decide

/-! ## Witnesses: states and operands that meet the hypotheses of each statement -/

theorem witness_DecodeOfEncode :
    (Instr.init 64 (zeros 65)).wf = true ∧ (Instr.update abc).wf = true ∧ Instr.finalize.wf = true
      ∧ (Instr.hash 0 [1] abc).wf = true ∧ (Instr.reserved ⟨4, 0, 1, 1⟩ ([9, 2] ++ zeros 7 ++ [5, 6])).wf = true := by decide

theorem witness_EncodeOfDecode : decode [0x03, 0, 0, 0, 0x07] = .ok (.finalize, [0x07]) := by decide

theorem witness_ExampleFramesDecode : opened.fault = false := by decide

theorem witness_FrameLengthFromHeader :
    decode [] = .error .header ∧ decode [0x01, 0x08, 0, 0, 0xAA] = .ok (.init 0 [0xAA], [])
      ∧ decode ([0x02, 0, 0, 0] ++ zeros 7) = .error .length ∧ decode ([0x02, 0, 0, 0] ++ zeros 8) = .ok (.update [], [])
      ∧ decode ([0x04, 0x08, 0, 0] ++ zeros 8) = .error .length
      ∧ decode ([0x04, 0x08, 0, 0] ++ zeros 9) = .ok (.hash 0 [0] [], [])
      ∧ decode [0x0F, 0xF8, 0x03, 0] = .ok (.reserved ⟨15, 0, 127, 0⟩ [], [])
      ∧ (waiting opened [0x01]).rst = false ∧ (waiting opened [0x01]).fault = false
      ∧ (waiting opened [0x01]).commands ≠ [] ∧ decode (waiting opened [0x01]).commands = .error .header := by decide

theorem witness_ReservedExactlyIllegalHeaders :
    decode [0x00, 0, 0, 0] = .ok (.reserved ⟨0, 0, 0, 0⟩ [], []) ∧ decode [0x05, 0, 0, 0] = .ok (.reserved ⟨5, 0, 0, 0⟩ [], [])
      ∧ decode [0x03, 0, 0x04, 0] = .ok (.reserved ⟨3, 0, 0, 1⟩ [], [])
      ∧ decode [0x13, 0, 0, 0] = .ok (.reserved ⟨3, 1, 0, 0⟩ [], [])
      ∧ decode [0x03, 0x08, 0, 0] = .ok (.reserved ⟨3, 0, 1, 0⟩ [], []) ∧ decode [0x03, 0, 0, 0] = .ok (.finalize, [])
      ∧ opened.fault = false ∧ opened.phase = .opened ∧ opened.t.toNat + opened.blen.val < 2 ^ 128 := by decide

theorem witness_OutOfRangeLengthsAreLegalFrames :
    opened.rst = false ∧ opened.fault = false ∧ (zeros 65).length < 2 ^ 7 ∧ abc.length < 2 ^ 64 ∧ (0 : BitVec 7).toNat = 0
      ∧ 64 < (65 : BitVec 7).toNat ∧ 64 < (zeros 65).length := by decide

theorem witness_TableWordIsNextCommand : opened.fault = false := by decide

theorem witness_StepRunsDecodedCommand :
    (waiting opened [0x03, 0, 0, 0]).rst = false ∧ (waiting opened [0x03, 0, 0, 0]).fault = false
      ∧ decode (waiting opened [0x03, 0, 0, 0]).commands = .ok (.finalize, []) := by decide

theorem witness_IdleKeepsStateResetEmptiesStream :
    opened.rst = false ∧ opened.fault = false ∧ opened.commands = [] ∧ opened.hostReset.rst = true := by decide

/-- The step that sets `FAULT`, and the one that clears it. -/
theorem witness_FaultHaltsUntilReset :
    (waiting brimful (encode (.update (zeros 2)))).fault = false
      ∧ (nextOf (step (waiting brimful (encode (.update (zeros 2)))))).map (·.fault) = some true
      ∧ (State.hostReset { opened with fault := true }).fault = true
      ∧ (nextOf (step (State.hostReset { opened with fault := true }))).isSome = true := by decide

theorem witness_ResetEventSetsEveryRegister : nearlyFull.hostReset.rst = true := by decide

theorem witness_CommandsAfterReset :
    1 ≤ (1 : BitVec 7).toNat ∧ (64 : BitVec 7).toNat ≤ 64 ∧ (zeros 64).length ≤ 64 := by decide

theorem witness_XorAndNotAreBitwise : 63 < 64 := by decide

theorem witness_RotationMovesEveryBit : 32 ∈ [32, 24, 16, 63] ∧ 63 ∈ [32, 24, 16, 63] ∧ 63 < 64 := by decide

theorem witness_MixGWritesFourWords :
    ([0, 4, 8, 12] : List (Fin 16)).Nodup
      ∧ (let v : Work := ((((Vector.replicate 16 0).set 0 1).set 4 2).set 8 3).set 12 4;
        v[(0 : Fin 16)] = 1 ∧ v[(4 : Fin 16)] = 2 ∧ v[(8 : Fin 16)] = 3 ∧ v[(12 : Fin 16)] = 4)
      ∧ (Vector.replicate 16 0 : Work)[(4 : Fin 16)] = 0 := by decide

theorem witness_PassOrderDoesNotMatter (g1 g2 g3 g4 : Work → Work) : [g4, g3, g2, g1].Perm [g1, g2, g3, g4] :=
  List.reverse_perm [g1, g2, g3, g4]

theorem witness_ScheduleRows : 9 < 10 ∧ 11 < 12 := by decide

theorem witness_WorkVectorBeforeRounds : (BitVec.ofNat 128 (2 ^ 64 - 1)).toNat < 2 ^ 64 := by decide

theorem witness_EnginePortCarriesCompress :
    (∀ i, (hi : i < 8) → (busToChain 5)[i] = (5 : BitVec 512).extractLsb' (64 * i) 64)
      ∧ ∀ i, (hi : i < 16) → (busToBlock 7)[i] = (7 : BitVec 1024).extractLsb' (64 * i) 64 := by
  constructor <;> intro i hi <;> simp [busToChain, busToBlock]

theorem witness_CanonicalMemoryIsUnique : Memory.wf [(0, 1), (127, 255)] := by decide

theorem witness_MemWriteThenMemRead : 120 + 8 ≤ 128 ∧ 128 < 121 + 8 := by decide

theorem witness_FormBlockPadsPendingBytes : nearlyFull.blen.val = 128 ∧ 15 < 16 := by decide

theorem witness_DigestIsLittleEndianPrefix : opened.nn.toNat ≤ 64 ∧ 63 < opened.nn.toNat ∧ 63 / 8 < 8 := by decide

theorem witness_InitStateLoadsParameterWord : (64 : BitVec 7).toNat ≤ 64 ∧ (0 : BitVec 7).toNat ≤ 64 := by decide

theorem witness_AbsorbHoldsBackFullBuffer :
    State.blen { opened with blen := 127 } < 128 ∧ nearlyFull.blen.val = 128 := by decide

theorem witness_InitOpensSession :
    opened.fault = false ∧ 1 ≤ (1 : BitVec 7).toNat ∧ (64 : BitVec 7).toNat ≤ 64 ∧ (zeros 64).length ≤ 64
      ∧ (0 : BitVec 7).toNat = 0 ∧ 64 < (65 : BitVec 7).toNat ∧ 64 < (zeros 65).length := by decide

/-- The highest total the counter holds. -/
theorem witness_UpdateCompressesAllButLastBlock :
    brimful.fault = false ∧ brimful.phase = .opened
      ∧ brimful.t.toNat + brimful.blen.val + (zeros 1).length < 2 ^ 128 := by decide

theorem witness_UpdateChecksThenAbsorbs :
    State.reset.fault = false ∧ State.reset.phase ≠ .opened ∧ brimful.fault = false ∧ brimful.phase = .opened
      ∧ 2 ^ 128 - 1 < brimful.t.toNat + brimful.blen.val + (zeros 2).length
      ∧ brimful.t.toNat + brimful.blen.val + (zeros 1).length ≤ 2 ^ 128 - 1 := by decide

theorem witness_FinalizeCompressesLastBlock :
    opened.fault = false ∧ opened.phase = .opened ∧ opened.t.toNat + opened.blen.val < 2 ^ 128 ∧ opened.nn.toNat ≤ 64
      ∧ State.reset.fault = false ∧ State.reset.phase ≠ .opened := by decide

theorem witness_HashIsInitUpdateFinalize :
    opened.fault = false ∧ abc.length < 2 ^ 64 ∧ 1 ≤ (1 : BitVec 7).toNat ∧ (64 : BitVec 7).toNat ≤ 64
      ∧ (zeros 64).length ≤ 64 ∧ 64 < (127 : BitVec 7).toNat := by decide

theorem witness_ReservedAnswersIllegalCommand :
    opened.fault = false ∧ (waiting opened [0x00, 0, 0, 0]).rst = false ∧ (waiting opened [0x00, 0, 0, 0]).fault = false
      ∧ decode (waiting opened [0x00, 0, 0, 0]).commands = .ok (.reserved ⟨0, 0, 0, 0⟩ [], [])
      ∧ (Header.ofBytes (waiting opened [0x00, 0, 0, 0]).commands).illegal = true := by decide

theorem witness_ConfigurationErrorOnlyAtConstruction :
    opened.fault = false ∧ (0 : BitVec 7).toNat < 1 ∧ 64 < (65 : BitVec 7).toNat ∧ 64 < (zeros 65).length
      ∧ (nextOf (exec (.update []) State.reset)).isSome = true ∧ (nextOf (exec .finalize State.reset)).isSome = true
      ∧ ∀ i ∈ [Instr.init 0 [], .init 65 [], .init 127 [], .init 1 (zeros 65), .hash 0 [] abc, .hash 65 [] abc,
          .hash 64 (zeros 127) abc],
        (nextOf (exec i opened)).map (·.responses) = some (opened.responses ++ [⟨.configError, []⟩]) := by decide

/-- The lengths next to the illegal ones are accepted (R181; the boundary of `ConfigurationErrorOnlyAtConstruction`). -/
theorem test_legal_lengths_at_the_boundary :
    ∀ i ∈ [Instr.init 1 [], .init 64 (zeros 64)],
      (nextOf (exec i opened)).map (·.responses) = some (opened.responses ++ [⟨.ok, []⟩]) := by decide

theorem witness_ClosedSessionRejectsUpdateAndFinalize :
    State.reset.fault = false ∧ State.reset.phase = .idle ∧ (compressLast opened).fault = false
      ∧ (compressLast opened).phase = .finalized := by decide

theorem witness_ErrorsWriteNoRegister :
    (nextOf (exec .finalize State.reset)).map (·.responses) = some (State.reset.responses ++ [⟨.sessionClosed, []⟩])
      ∧ Status.sessionClosed ≠ .ok := by decide

theorem witness_CounterOverflowSetsFaultOnly :
    brimful.fault = false ∧ brimful.phase = .opened
      ∧ 2 ^ 128 - 1 < brimful.t.toNat + brimful.blen.val + (zeros 2).length := by decide

theorem witness_ConditionPriority :
    State.rst { opened with fault := true } = false
      ∧ decode (waiting opened [0x05, 0, 0, 0]).commands = .ok (.reserved ⟨5, 0, 0, 0⟩ [], [])
      ∧ Header.illegal ⟨5, 0, 0, 0⟩ = true ∧ (waiting opened [0x05, 0, 0, 0]).rst = false
      ∧ (waiting opened [0x05, 0, 0, 0]).fault = false ∧ 64 < (65 : BitVec 7).toNat ∧ State.reset.phase ≠ .opened
      ∧ brimful.phase = .opened ∧ 2 ^ 128 - 1 < brimful.t.toNat + brimful.blen.val + (zeros 2).length := by decide

/-- Each of the five commands has a next state from an open session. -/
theorem witness_every_command_has_a_next_state :
    (nextOf (exec (.init 1 [5]) opened)).isSome = true ∧ (nextOf (exec (.update abc) opened)).isSome = true
      ∧ (nextOf (exec .finalize opened)).isSome = true ∧ (nextOf (exec (.hash 64 [5] abc) opened)).isSome = true
      ∧ (nextOf (exec (.reserved ⟨0, 0, 0, 0⟩ []) opened)).isSome = true := by decide

theorem witness_PhaseTransitions :
    (nextOf (exec (.init 1 [5]) opened)).isSome = true ∧ opened.phase = .opened ∧ State.reset.phase ≠ .opened
      ∧ opened.t.toNat + opened.blen.val + abc.length ≤ 2 ^ 128 - 1 := by decide

theorem witness_OneResponsePerCommand : (nextOf (exec (.hash 64 [5] abc) opened)).isSome = true := by decide

/-- A command that changes `NN`, `KK`, `BUF`, `BLEN`, `H` and `PHASE`, and one that changes `FAULT`. -/
theorem witness_RegisterWriters :
    (nextOf (exec (.init 32 [5]) State.reset)).map
        (fun t => (t.nn != 0 && t.kk != 0 && t.buf != [] && t.blen != 0 && t.h[0] != 0 && t.phase != .idle)) = some true
      ∧ (nextOf (exec (.update (zeros 2)) brimful)).map (·.fault) = some true := by decide +kernel

theorem witness_DigestLengthAndDeterminism :
    opened.Inv ∧ (nextOf (exec .finalize opened)).map (fun t => t.responses.map (·.status)) = some [.ok]
      ∧ (nextOf (exec (.hash 1 [] abc) opened)).map (fun t => t.responses.map (·.status)) = some [.ok] := by decide

theorem witness_EveryStepKeepsInvariant :
    (waiting opened [0x03, 0, 0, 0]).Inv ∧ (nextOf (step (waiting opened [0x03, 0, 0, 0]))).isSome = true := by decide

theorem witness_ChunkingInvariance :
    nearlyFull.fault = false ∧ nearlyFull.phase = .opened
      ∧ nearlyFull.t.toNat + nearlyFull.blen.val + abc.length + abc.length < 2 ^ 128 := by decide

theorem witness_HeldBackKeyEqualsEagerKey :
    ([1] : List Byte) ≠ [] ∧ ([1] : List Byte).length ≤ 64 ∧ abc ≠ [] ∧ abc.length < 2 ^ 64
      ∧ (nextOf (exec (.init 64 [1]) State.reset)).map (fun s => (s.phase, s.responses)) = some (.opened, [⟨.ok, []⟩]) := by
  decide

/-- Two states that differ in every register the claim calls unread. -/
theorem witness_UnreadStateIsUnobservable :
    SameView State.reset { State.reset with h := iv, t := 5, buf := [(0, 1)], blen := 7, nn := 3, kk := 2 }
      ∧ SameView opened { opened with buf := [(9, 1)], kk := 2 } := by
  refine ⟨⟨rfl, rfl, rfl, fun open' => ?_⟩, ⟨rfl, rfl, rfl, fun _ => ⟨rfl, rfl, rfl, rfl, ?_⟩⟩⟩
  · cases open'
  · intro k hk; exact absurd hk (Nat.not_lt_zero k)

theorem witness_SessionRunHashesByteStream :
    let frames := encode (.init 64 [1]) ++ ([abc, []].flatMap fun piece => encode (.update piece)) ++ encode .finalize
    (waiting State.reset frames).rst = false ∧ (waiting State.reset frames).fault = false ∧ 1 ≤ (64 : BitVec 7).toNat
      ∧ (64 : BitVec 7).toNat ≤ 64 ∧ ([1] : List Byte).length ≤ 64 ∧ (∀ piece ∈ [abc, []], piece.length < 2 ^ 64)
      ∧ (keyStream [1] ++ [abc, []].flatten).length < 2 ^ 128 ∧ (waiting State.reset frames).commands = frames ++ [] := by
  decide +kernel

/-! ## Assembler lines (R84, R85) -/

theorem test_assemble_program :
    assemble [.init 32 [], .update (.ascii "abc"), .finalize, .frame [0x05, 0, 0, 0]]
      = [0x01, 0x02, 0, 0, 0x02, 0, 0, 0, 0x03, 0, 0, 0, 0, 0, 0, 0, 0x61, 0x62, 0x63, 0x03, 0, 0, 0, 0x05, 0, 0, 0] := by
  decide

theorem test_assemble_pat_wraps : (patBytes 253).drop 249 = [249, 250, 0, 1] := by decide

theorem witness_AssemblerLines : ([1, 2] : List Byte).length < 128 ∧ (LineData.ascii "abc").bytes.length < 2 ^ 64 := by
  decide

/-! ## The tests that run the engine -/

/-- E3 (95_test_vectors.md 2.5): the high half of the counter. -/
theorem test_compress_high_counter :
    (compress iv (Vector.replicate 16 0) (BitVec.ofNat 128 (2 ^ 64)) false)[0] = 0x66581B4E441AC020 := by decide +kernel

/-- S2: `HASH 64, "abc"`. -/
theorem test_hash_64_abc :
    (nextOf (exec (.hash 64 [] abc) State.reset)).map (fun t => t.responses.flatMap Response.bytes)
      = some (0x00 ::
          [0xBA, 0x80, 0xA5, 0x3F, 0x98, 0x1C, 0x4D, 0x0D, 0x6A, 0x27, 0x97, 0xB6, 0x9F, 0x12, 0xF6, 0xE9,
           0x4C, 0x21, 0x2F, 0x14, 0x68, 0x5A, 0xC4, 0xB7, 0x4B, 0x12, 0xBB, 0x6F, 0xDB, 0xFF, 0xA2, 0xD1,
           0x7D, 0x87, 0xC5, 0x39, 0x2A, 0xAB, 0x79, 0x2D, 0xC2, 0x52, 0xD5, 0xDE, 0x45, 0x33, 0xCC, 0x95,
           0x18, 0xD3, 0x8A, 0xA8, 0xDB, 0xF1, 0x92, 0x5A, 0xB9, 0x23, 0x86, 0xED, 0xD4, 0x00, 0x99, 0x23]) := by
  decide +kernel

/-- P2, command 3: the byte after a full buffer compresses it. -/
theorem test_update_compresses_full_buffer :
    (nextOf (exec (.update [0x80]) (absorbAll (openSession 32 [] State.reset) (patBytes 128)))).map
        (fun t => (t.h[0], t.t, t.blen, t.buf.read 0, t.buf.read 1))
      = some (0x12DAC38388CCDC21, 128, 1, 0x80, 0x01) := by decide +kernel

/-- P3, command 2: the key block of a keyed empty message is compressed once, with `T = 128` and `f = 1`. -/
theorem test_finalize_keyed_empty :
    (nextOf (exec .finalize (openSession 64 ((List.range 64).map (BitVec.ofNat 8)) State.reset))).map
        (fun t => (t.h[0], t.h[7], t.t, t.blen))
      = some (0x8E86B10077B6EB10, 0x6815C53FC1CBEF7A, 128, 128) := by decide +kernel

end Sys2Proof.Tests
end

/-! SUPPORT. The statements on the state of the core (spec/10_state.md): what one command and one step can do, the session
invariant, what the host cannot tell of a state, and which command writes which register. -/

namespace Sys2Proof.Machine

/-! ## After ABSORB over a data sequence: what `absorbAll_frame` says, field by field -/

section
variable (s : State) (data : List Byte)

@[simp] theorem absorbAll_nn : (absorbAll s data).nn = s.nn := by simp only [absorbAll_frame s data]
@[simp] theorem absorbAll_kk : (absorbAll s data).kk = s.kk := by simp only [absorbAll_frame s data]
@[simp] theorem absorbAll_phase : (absorbAll s data).phase = s.phase := by simp only [absorbAll_frame s data]
@[simp] theorem absorbAll_fault : (absorbAll s data).fault = s.fault := by simp only [absorbAll_frame s data]
@[simp] theorem absorbAll_commands : (absorbAll s data).commands = s.commands := by simp only [absorbAll_frame s data]
@[simp] theorem absorbAll_keeps_responses : (absorbAll s data).responses = s.responses := by simp only [absorbAll_frame s data]
@[simp] theorem absorbAll_rst : (absorbAll s data).rst = s.rst := by simp only [absorbAll_frame s data]

end

/-- The condition of ConfigurationError is that the operands are not legal (R181). -/
theorem configIllegal_iff_not_legal {nn : BitVec 7} {key : List Byte} :
    configIllegal nn key = true ↔ ¬(1 ≤ nn.toNat ∧ nn.toNat ≤ 64 ∧ key.length ≤ 64) := by
  rw [← configLegal_iff, Bool.not_eq_false]

/-! ## What a command can do -/

/-- A command that has a next state started with `FAULT = 0` (R31). -/
theorem exec_next_fault {i : Instr} {s t : State} (h : exec i s = .next t) : s.fault = false := by
  rw [← Bool.not_eq_true]
  intro f
  rw [exec_halted f] at h
  cases h

/-- Every way a command can have a next state: it answers an error and writes nothing, or it is the success of one of the
four commands, or it is CounterOverflow (R146 to R150, R183, R186). -/
theorem exec_cases {i : Instr} {s t : State} (h : exec i s = .next t) :
    (∃ status, status ≠ .ok ∧ t = s.answered status [])
      ∨ (∃ nn key, i = .init nn key ∧ configIllegal nn key = false ∧ t = (openSession nn key s).answered .ok [])
      ∨ (∃ data, i = .update data ∧ s.phase = .opened ∧ counterExceeded s data.length = true
          ∧ t = { s with fault := true })
      ∨ (∃ data, i = .update data ∧ s.phase = .opened ∧ counterExceeded s data.length = false
          ∧ t = (absorbAll s data).answered .ok [])
      ∨ (i = .finalize ∧ s.phase = .opened ∧ t = (compressLast s).answered .ok (serialize (compressLast s)))
      ∨ (∃ nn key data, i = .hash nn key data ∧ configIllegal nn key = false
          ∧ t = (hashed nn key data s).answered .ok (serialize (hashed nn key data s))) := by
  cases i with
  | init nn key =>
    obtain ⟨-, ⟨-, e⟩ | ⟨legal, e⟩⟩ := execInit_cases h
    · exact .inl ⟨.configError, by decide, e⟩
    · exact .inr (.inl ⟨nn, key, rfl, legal, e⟩)
  | update data =>
    obtain ⟨-, ⟨-, e⟩ | ⟨o, exceeds, e⟩ | ⟨o, fits, e⟩⟩ := execUpdate_cases h
    · exact .inl ⟨.sessionClosed, by decide, e⟩
    · exact .inr (.inr (.inl ⟨data, rfl, o, exceeds, e⟩))
    · exact .inr (.inr (.inr (.inl ⟨data, rfl, o, fits, e⟩)))
  | finalize =>
    obtain ⟨-, ⟨-, e⟩ | ⟨o, e⟩⟩ := execFinalize_cases h
    · exact .inl ⟨.sessionClosed, by decide, e⟩
    · exact .inr (.inr (.inr (.inr (.inl ⟨rfl, o, e⟩))))
  | hash nn key data =>
    obtain ⟨-, ⟨-, e⟩ | ⟨legal, e⟩⟩ := execHash_cases h
    · exact .inl ⟨.configError, by decide, e⟩
    · exact .inr (.inr (.inr (.inr (.inr ⟨nn, key, data, rfl, legal, e⟩))))
  | reserved hd p => exact .inl ⟨.illegalCommand, by decide, (execReserved_cases (hd := hd) (p := p) h).2⟩

/-- A command sets `FAULT` only as CounterOverflow, an UPDATE of an open session past `2^128 - 1` bytes (R31, R186). -/
theorem exec_sets_fault {i : Instr} {s t : State} (h : exec i s = .next t) (set : t.fault = true) :
    ∃ data, i = .update data ∧ s.phase = .opened ∧ 2 ^ 128 - 1 < s.t.toNat + s.blen.val + data.length := by
  have clear := exec_next_fault h
  obtain ⟨_, -, rfl⟩ | ⟨nn, key, -, -, rfl⟩ | ⟨data, e, o, exceeds, -⟩ | ⟨data, -, -, -, rfl⟩ | ⟨-, -, rfl⟩
    | ⟨nn, key, data, -, -, rfl⟩ := exec_cases h
  · simp [clear] at set
  · simp [clear] at set
  · rw [counterExceeded_iff] at exceeds
    exact ⟨data, e, o, by omega⟩
  · simp [clear] at set
  · simp [clear] at set
  · simp [clear] at set

/-! ## The outcome of each command in service (R146 to R150) -/

section
variable {s : State} (f : s.fault = false)
include f

theorem exec_init (nn : BitVec 7) (key : List Byte) :
    exec (.init nn key) s =
      if configIllegal nn key then .next (s.answered .configError []) else .next ((openSession nn key s).answered .ok []) := by
  simp [exec, execInit, inService, raise, respond, f]

theorem exec_update (data : List Byte) :
    exec (.update data) s =
      if sessionClosed s then .next (s.answered .sessionClosed [])
      else if counterExceeded s data.length then .next { s with fault := true }
      else .next ((absorbAll s data).answered .ok []) := by
  simp [exec, execUpdate, inService, raise, respond, faultOverflow, f]

theorem exec_finalize :
    exec .finalize s =
      if sessionClosed s then .next (s.answered .sessionClosed [])
      else .next ((compressLast s).answered .ok (serialize (compressLast s))) := by
  simp [exec, execFinalize, inService, raise, respond, f]

theorem exec_hash (nn : BitVec 7) (key data : List Byte) :
    exec (.hash nn key data) s =
      if configIllegal nn key then .next (s.answered .configError [])
      else .next ((hashed nn key data s).answered .ok (serialize (hashed nn key data s))) := by
  simp [exec, execHash, inService, raise, respond, f]

theorem exec_reserved (hd : Header) (p : List Byte) :
    exec (.reserved hd p) s = .next (s.answered .illegalCommand []) := by
  simp [exec, execReserved, inService, raise, respond, f]

end

/-! ## The outcome of each kind of step (R77, R140, R193, R200) -/

section
variable {s : State}

/-- A reset event comes before everything else. -/
theorem step_reset (r : s.rst = true) : step s = .next (resetEvent s) := by
  simp [step, turn, r]

/-- While `FAULT = 1` the core takes no step. -/
theorem step_halted (r : s.rst = false) (f : s.fault = true) : step s = .fault .counterOverflow := by
  simp [step, turn, r, f]

theorem step_idle (r : s.rst = false) (f : s.fault = false) (c : s.commands = []) : step s = .next s := by
  simp [step, turn, r, f, c]

theorem step_truncated (r : s.rst = false) (f : s.fault = false) (c : s.commands ≠ []) {missing : Truncation}
    (e : decode s.commands = .error missing) : step s = .refused (.incompleteFrame missing) := by
  obtain ⟨b, bs, front⟩ := List.exists_cons_of_ne_nil c
  simp [step, turn, r, f, front, front ▸ e]

/-- What decodes is never the empty stream, so the command runs on the state without its frame. -/
theorem step_command (r : s.rst = false) (f : s.fault = false) {i : Instr} {rest : List Byte}
    (e : decode s.commands = .ok (i, rest)) : step s = exec i { s with commands := rest } := by
  cases front : s.commands with
  | nil =>
    rw [front] at e
    cases e
  | cons b bs => simp [step, turn, r, f, front, front ▸ e]

end

/-! ## The session invariant (R35) -/

/-- An accepted key length is at most 64 as the register `KK` holds it (R26, R83). -/
theorem keyLength_le {key : List Byte} (h : key.length ≤ 64) : (keyLength key).toNat ≤ 64 := by
  simp only [keyLength, BitVec.toNat_ofNat]
  omega

/-- A legal INIT leaves a state that meets the invariant (R146). -/
theorem openSession_inv {s : State} (wf : s.buf.wf) {nn : BitVec 7} {key : List Byte}
    (legal : configIllegal nn key = false) : (openSession nn key s).Inv := by
  obtain ⟨lo, hi, short⟩ := configLegal_iff.1 legal
  refine ⟨openSession_wf wf nn (by omega), ⟨?_, ?_, fun _ => ?_⟩, fun _ => ⟨?_, ?_, ?_⟩⟩
  · simpa using hi
  · simpa using keyLength_le short
  · simpa using lo
  · simp
  · simp
  · have := blen_le (openSession nn key s)
    rw [openSession_t]
    exact (Nat.zero_add _).trans_lt (by omega)

/-- ABSORB writes neither configuration register nor `PHASE`. -/
theorem absorbAll_configLegal {s : State} (legal : ConfigLegal s) (data : List Byte) : ConfigLegal (absorbAll s data) := by
  simpa only [ConfigLegal, absorbAll_nn, absorbAll_kk, absorbAll_phase] using legal

/-- An UPDATE within the counter's range keeps the invariant (R147). -/
theorem absorbAll_inv {s : State} (inv : s.Inv) (o : s.phase = .opened) {data : List Byte}
    (fits : counterExceeded s data.length = false) : (absorbAll s data).Inv := by
  obtain ⟨wf, config, counter⟩ := inv
  obtain ⟨aligned, pending, -⟩ := counter o
  have range : s.t.toNat + s.blen.val + data.length < 2 ^ 128 := by
    rw [← Bool.not_eq_true, counterExceeded_iff] at fits
    omega
  obtain ⟨total, keepsAligned, keepsPending⟩ := absorbAll_counts data range
  refine ⟨absorbAll_wf wf data, absorbAll_configLegal config data, fun _ => ⟨keepsAligned aligned, ?_, by omega⟩⟩
  intro counted
  cases data with
  | nil => exact pending counted
  | cons b bs => exact keepsPending (.inr (List.cons_ne_nil b bs))

/-- The last compression of an open session leaves no counter fact to keep (R148). -/
theorem compressLast_inv {s : State} (wf : s.buf.wf) (config : ConfigLegal s) (o : s.phase = .opened) :
    (compressLast s).Inv := by
  obtain ⟨hi, key, lo⟩ := config
  exact ⟨wf, ⟨hi, key, fun _ => lo (by simp [o])⟩, fun stillOpen => by simp at stillOpen⟩

/-- A legal HASH leaves a state that meets the invariant, however long its data is (R149). -/
theorem hashed_inv {s : State} (wf : s.buf.wf) {nn : BitVec 7} {key : List Byte} (legal : configIllegal nn key = false)
    (data : List Byte) : (hashed nn key data s).Inv := by
  obtain ⟨opened, config, -⟩ := openSession_inv wf legal
  exact compressLast_inv (absorbAll_wf opened data) (absorbAll_configLegal config data) (by simp)

/-- Every command keeps the invariant. -/
theorem exec_keeps_inv {i : Instr} {s t : State} (inv : s.Inv) (h : exec i s = .next t) : t.Inv := by
  have ⟨wf, config, _⟩ := inv
  obtain ⟨_, -, rfl⟩ | ⟨nn, key, -, legal, rfl⟩ | ⟨_, -, -, -, rfl⟩ | ⟨data, -, o, fits, rfl⟩ | ⟨-, o, rfl⟩
    | ⟨nn, key, data, -, legal, rfl⟩ := exec_cases h
  · exact inv
  · exact openSession_inv wf legal
  · exact inv
  · exact absorbAll_inv inv o fits
  · exact compressLast_inv wf config o
  · exact hashed_inv wf legal data

/-- Reset meets the invariant (R37). -/
theorem reset_inv : State.reset.Inv :=
  ⟨wf_nil, by decide, fun o => by cases o⟩

/-- Settles O46: no byte is pending, no session is open, and both configuration registers are 0. -/
theorem resetMeetsInvariant : Obligations.ResetMeetsInvariant := reset_inv

/-- Settles O47, by the cases of a step: reset, idle, or one command. -/
theorem everyStepKeepsInvariant : Obligations.EveryStepKeepsInvariant := by
  intro s t inv h
  obtain ⟨-, rfl⟩ | ⟨-, -, -, rfl⟩ | ⟨-, -, i, rest, -, run⟩ := step_cases h
  · exact reset_inv
  · exact inv
  · exact exec_keeps_inv (s := { s with commands := rest }) inv run

/-! ## What the host cannot tell (R37, R205, R211) -/

/-- The part of `SameView` that the host or the next step sees whatever the phase is. -/
structure SameVisible (s t : State) : Prop where
  responses : s.responses = t.responses
  phase : s.phase = t.phase
  fault : s.fault = t.fault
  commands : s.commands = t.commands
  rst : s.rst = t.rst

/-- The registers an open session reads again, with the pending bytes of `BUF` only. -/
structure SameData (s t : State) : Prop where
  chain : s.h = t.h
  counter : s.t = t.t
  blen : s.blen = t.blen
  nn : s.nn = t.nn
  pending : ∀ k < s.blen.val, s.buf.read k = t.buf.read k

/-- `SameView` is the visible part, and the session's data while it is open. -/
theorem sameView_iff {s t : State} : SameView s t ↔ SameVisible s t ∧ (s.phase = .opened → SameData s t) := by
  constructor
  · rintro ⟨observed, commands, rst, session⟩
    simp only [State.observation, Observation.mk.injEq] at observed
    obtain ⟨responses, phase, fault⟩ := observed
    refine ⟨⟨responses, phase, fault, commands, rst⟩, fun o => ?_⟩
    obtain ⟨chain, counter, blen, nn, pending⟩ := session o
    exact ⟨chain, counter, blen, nn, pending⟩
  · rintro ⟨⟨responses, phase, fault, commands, rst⟩, session⟩
    refine ⟨by simp [State.observation, responses, phase, fault], commands, rst, fun o => ?_⟩
    obtain ⟨chain, counter, blen, nn, pending⟩ := session o
    exact ⟨chain, counter, blen, nn, pending⟩

section
variable {s t : State}

theorem SameVisible.answered (v : SameVisible s t) (status : Status) (payload : List Byte) :
    SameVisible (s.answered status payload) (t.answered status payload) :=
  ⟨by simp [v.responses], v.phase, v.fault, v.commands, v.rst⟩

theorem SameVisible.openSession (v : SameVisible s t) (nn : BitVec 7) (key : List Byte) :
    SameVisible (openSession nn key s) (openSession nn key t) := by
  constructor <;> simp [v.responses, v.fault, v.commands, v.rst]

theorem SameVisible.absorbAll (v : SameVisible s t) (data : List Byte) :
    SameVisible (absorbAll s data) (absorbAll t data) := by
  constructor <;> simp [v.responses, v.phase, v.fault, v.commands, v.rst]

theorem SameVisible.compressLast (v : SameVisible s t) : SameVisible (compressLast s) (compressLast t) :=
  ⟨v.responses, rfl, v.fault, v.commands, v.rst⟩

/-- A session opened on any two states starts from the same data: nothing of an earlier session is read (R146). -/
theorem openSession_sameData (s t : State) (nn : BitVec 7) {key : List Byte} (short : key.length ≤ 64) :
    SameData (openSession nn key s) (openSession nn key t) where
  chain := by simp
  counter := by simp
  blen := by simp [openSession_blen]
  nn := by simp
  pending := fun k hk => by
    rw [openSession_blen] at hk
    split at hk
    · exact absurd hk (Nat.not_lt_zero k)
    · next keyed => simp [openSession_read _ nn (show key.length ≤ 128 by omega) hk, keyed]

/-- The block the engine is given is the same (R144, R205). -/
theorem SameData.formBlock (d : SameData s t) : formBlock s = formBlock t := formBlock_congr d.blen d.pending

theorem SameData.compressInterior (d : SameData s t) : SameData (compressInterior s) (compressInterior t) where
  chain := by simp [d.chain, d.counter, d.formBlock]
  counter := by simp [d.counter]
  blen := rfl
  nn := d.nn
  pending := fun k hk => absurd hk (Nat.not_lt_zero k)

/-- Storing the next byte makes it pending, and leaves every byte below it as it was. -/
theorem SameData.bufferByte (d : SameData s t) {n : Fin 128} (next : n.val = s.blen.val) (b : Byte) :
    SameData (bufferByte n b s) (bufferByte n b t) where
  chain := d.chain
  counter := d.counter
  blen := rfl
  nn := d.nn
  pending := fun k hk => by
    simp only [bufferByte_blen, Fin.val_succ] at hk
    simp only [bufferByte_buf, read_write]
    split
    · rfl
    · exact d.pending k (by omega)

theorem SameData.absorb (d : SameData s t) (b : Byte) : SameData (absorb s b) (absorb t b) := by
  rcases room_or_full s with room | full
  · have room' : t.blen.val < 128 := by rwa [← d.blen]
    have same : (⟨t.blen.val, room'⟩ : Fin 128) = ⟨s.blen.val, room⟩ := by simp [d.blen]
    rw [absorb_room room, absorb_room room', same]
    exact d.bufferByte rfl b
  · rw [absorb_full full, absorb_full (by rwa [← d.blen])]
    exact d.compressInterior.bufferByte rfl b

theorem SameData.absorbAll (d : SameData s t) (data : List Byte) : SameData (absorbAll s data) (absorbAll t data) := by
  induction data generalizing s t with
  | nil => exact d
  | cons b bs ih => exact ih (d.absorb b)

/-- The digests are the same (R145, R148). -/
theorem SameData.serialize_compressLast (d : SameData s t) :
    serialize (compressLast s) = serialize (compressLast t) := by
  simp only [serialize, compressLast_h, compressLast_nn, d.chain, d.counter, d.blen, d.nn, d.formBlock]

/-- Outside an open session the visible part alone makes two states the same to the host. -/
theorem SameVisible.sameView (v : SameVisible s t) (closed : s.phase ≠ .opened) : SameView s t :=
  sameView_iff.2 ⟨v, fun o => absurd o closed⟩

theorem SameData.sameView (d : SameData s t) (v : SameVisible s t) : SameView s t := sameView_iff.2 ⟨v, fun _ => d⟩

/-- Two states with one view send the same response and still have one view. -/
theorem SameView.answered (same : SameView s t) (status : Status) (payload : List Byte) :
    SameView (s.answered status payload) (t.answered status payload) := by
  obtain ⟨v, data⟩ := sameView_iff.1 same
  exact sameView_iff.2 ⟨v.answered status payload, fun o => { data o with }⟩

/-- CounterOverflow writes `FAULT` only. -/
theorem SameView.faulted (same : SameView s t) : SameView { s with fault := true } { t with fault := true } := by
  obtain ⟨v, data⟩ := sameView_iff.1 same
  exact sameView_iff.2 ⟨{ v with fault := rfl }, fun o => { data o with }⟩

/-- The same bytes taken from the command stream leave one view. -/
theorem SameView.consumed (same : SameView s t) (rest : List Byte) :
    SameView { s with commands := rest } { t with commands := rest } := by
  obtain ⟨observed, -, rst, session⟩ := same
  exact ⟨observed, rfl, rst, session⟩

/-- FINALIZE of one session's data closes both sessions with the same answer. -/
theorem SameData.finalized (d : SameData s t) (v : SameVisible s t) :
    SameView ((compressLast s).answered .ok (serialize (compressLast s)))
      ((compressLast t).answered .ok (serialize (compressLast t))) := by
  rw [← d.serialize_compressLast]
  exact (v.compressLast.sameView (by simp)).answered .ok _

/-- A command answers alike on two states with one view, and leaves one view. -/
theorem SameView.exec (same : SameView s t) (i : Instr) : SameOutcome (exec i s) (exec i t) := by
  obtain ⟨v, session⟩ := sameView_iff.1 same
  cases f : s.fault with
  | true =>
    rw [exec_halted f, exec_halted (v.fault ▸ f)]
    rfl
  | false =>
    have f' : t.fault = false := v.fault ▸ f
    have closed : sessionClosed s = sessionClosed t := by simp only [sessionClosed, v.phase]
    cases i with
    | init nn key =>
      rw [exec_init f, exec_init f']
      split
      · exact same.answered .configError []
      · next legal =>
        obtain ⟨-, -, short⟩ := configLegal_iff.1 (by simpa using legal)
        exact ((openSession_sameData s t nn short).sameView (v.openSession nn key)).answered .ok []
    | update data =>
      rw [exec_update f, exec_update f', ← closed]
      split
      · exact same.answered .sessionClosed []
      · next o =>
        have d := session (by simpa [sessionClosed] using o)
        have exceeded : counterExceeded s data.length = counterExceeded t data.length := by
          simp only [counterExceeded, d.counter, d.blen]
        rw [← exceeded]
        split
        · exact same.faulted
        · exact ((d.absorbAll data).sameView (v.absorbAll data)).answered .ok []
    | finalize =>
      rw [exec_finalize f, exec_finalize f', ← closed]
      split
      · exact same.answered .sessionClosed []
      · next o => exact (session (by simpa [sessionClosed] using o)).finalized v
    | hash nn key data =>
      rw [exec_hash f, exec_hash f']
      split
      · exact same.answered .configError []
      · next legal =>
        obtain ⟨-, -, short⟩ := configLegal_iff.1 (by simpa using legal)
        exact ((openSession_sameData s t nn short).absorbAll data).finalized ((v.openSession nn key).absorbAll data)
    | reserved hd p =>
      rw [exec_reserved f, exec_reserved f']
      exact same.answered .illegalCommand []

/-- A step from two states with one view stops both alike or leaves one view. -/
theorem SameView.step (same : SameView s t) : SameOutcome (step s) (step t) := by
  obtain ⟨v, -⟩ := sameView_iff.1 same
  cases r : s.rst with
  | true =>
    rw [step_reset r, step_reset (v.rst ▸ r)]
    refine SameVisible.sameView ⟨?_, rfl, rfl, rfl, rfl⟩ (by simp)
    simp [v.responses]
  | false =>
    have r' : t.rst = false := v.rst ▸ r
    cases f : s.fault with
    | true =>
      rw [step_halted r f, step_halted r' (v.fault ▸ f)]
      rfl
    | false =>
      have f' : t.fault = false := v.fault ▸ f
      by_cases c : s.commands = []
      · rw [step_idle r f c, step_idle r' f' (v.commands ▸ c)]
        exact same
      · have c' : t.commands ≠ [] := v.commands ▸ c
        cases e : decode s.commands with
        | error missing =>
          rw [step_truncated r f c e, step_truncated r' f' c' (v.commands ▸ e)]
          rfl
        | ok taken =>
          obtain ⟨i, rest⟩ := taken
          rw [step_command r f e, step_command r' f' (v.commands ▸ e)]
          exact (same.consumed rest).exec i

end

/-- Two outcomes the host cannot tell apart are two next states with one view, or the same stop. -/
theorem sameOutcome_cases {o p : Host.Outcome State Fault Refusal} (same : SameOutcome o p) :
    (∃ s t, o = .next s ∧ p = .next t ∧ SameView s t) ∨ (∃ r, o = .fault r ∧ p = .fault r)
      ∨ ∃ r, o = .refused r ∧ p = .refused r :=
  match o, p, same with
  | .next s, .next t, view => .inl ⟨s, t, rfl, rfl, view⟩
  | .fault r, .fault _, rfl => .inr (.inl ⟨r, rfl, rfl⟩)
  | .refused r, .refused _, rfl => .inr (.inr ⟨r, rfl, rfl⟩)

/-- Two states with one view stay so however many steps are taken. -/
theorem run_sameOutcome (n : Nat) {s t : State} (same : SameView s t) : SameOutcome (run n s) (run n t) := by
  induction n generalizing s t with
  | zero => exact same
  | succ n ih =>
    obtain ⟨a, b, hs, ht, view⟩ | ⟨r, hs, ht⟩ | ⟨r, hs, ht⟩ := sameOutcome_cases same.step
    · rw [run_next hs, run_next ht]
      exact ih view
    · simp only [run, hs, ht, SameOutcome]
    · simp only [run, hs, ht, SameOutcome]

/-- Settles O50, by induction on the number of steps: one step keeps the view or stops both states alike. -/
theorem unreadStateIsUnobservable : Obligations.UnreadStateIsUnobservable :=
  fun n _ _ same => run_sameOutcome n same

/-! ## `FAULT`, `PHASE` and the registers (R21, R28, R31, R37) -/

/-- Settles O10: the four kinds of step, and `exec_sets_fault` for the one command that sets the bit. -/
theorem faultHaltsUntilReset : Obligations.FaultHaltsUntilReset := by
  refine ⟨fun s i f => exec_halted f i, fun s r f => step_halted r f, ?_, ?_, fun s r => ⟨_, step_reset r, rfl⟩⟩
  · intro s t h f set
    obtain ⟨-, rfl⟩ | ⟨-, -, -, rfl⟩ | ⟨-, -, i, rest, taken, run⟩ := step_cases h
    · simp at set
    · simp [f] at set
    · obtain ⟨data, rfl, o, exceeds⟩ := exec_sets_fault run set
      exact ⟨data, rest, taken, o, exceeds⟩
  · intro s t h f
    obtain ⟨r, -⟩ | ⟨-, f', -⟩ | ⟨-, f', -⟩ := step_cases h
    · exact r
    · simp [f] at f'
    · simp [f] at f'

/-- Settles O42, by the inversion lemma of each command. -/
theorem phaseTransitions : Obligations.PhaseTransitions := by
  refine ⟨rfl, fun s i t h => ?_⟩
  cases i with
  | init nn key =>
    obtain ⟨-, ⟨illegal, rfl⟩ | ⟨legal, rfl⟩⟩ := execInit_cases h
    · exact ⟨fun legal => absurd legal (configIllegal_iff_not_legal.1 illegal), fun _ => rfl⟩
    · exact ⟨fun _ => ⟨⟨[], by simp⟩, by simp⟩, fun illegal => absurd (configLegal_iff.1 legal) illegal⟩
  | update data =>
    obtain ⟨-, ⟨closed, rfl⟩ | ⟨o, exceeds, rfl⟩ | ⟨o, -, rfl⟩⟩ := execUpdate_cases h
    · exact ⟨fun o => absurd o closed, fun _ => rfl⟩
    · rw [counterExceeded_iff] at exceeds
      exact ⟨fun _ => ⟨o, fun fits => by omega⟩, fun closed => absurd o closed⟩
    · exact ⟨fun _ => ⟨by simp [o], fun _ => ⟨[], by simp⟩⟩, fun closed => absurd o closed⟩
  | finalize =>
    obtain ⟨-, ⟨closed, rfl⟩ | ⟨o, rfl⟩⟩ := execFinalize_cases h
    · exact ⟨fun o => absurd o closed, fun _ => rfl⟩
    · exact ⟨fun _ => ⟨⟨_, rfl⟩, rfl⟩, fun closed => absurd o closed⟩
  | hash nn key data =>
    obtain ⟨-, ⟨illegal, rfl⟩ | ⟨legal, rfl⟩⟩ := execHash_cases h
    · exact ⟨fun legal => absurd legal (configIllegal_iff_not_legal.1 illegal), fun _ => rfl⟩
    · exact ⟨fun _ => ⟨⟨serialize (hashed nn key data s), by simp⟩, rfl⟩,
        fun illegal => absurd (configLegal_iff.1 legal) illegal⟩
  | reserved hd p => exact (execReserved_cases (hd := hd) (p := p) h).2

/-- Settles O44: each outcome of `exec_cases` is a chain of updates whose fields the simp set knows. -/
theorem registerWriters : Obligations.RegisterWriters := by
  intro i s t h
  obtain ⟨_, -, rfl⟩ | ⟨nn, key, rfl, -, rfl⟩ | ⟨data, rfl, -, -, rfl⟩ | ⟨data, rfl, -, -, rfl⟩ | ⟨rfl, -, rfl⟩
    | ⟨nn, key, data, rfl, -, rfl⟩ := exec_cases h
  all_goals simp

/-- Settles O12, by the table of R37 that `State.reset` writes out. -/
theorem resetValues : Obligations.ResetValues :=
  ⟨rfl, rfl, fun i hi => by simp [State.reset], rfl, fun _ _ => rfl, rfl, rfl, rfl⟩

/-- Settles O28: two adjacent 64-bit fields make up the 128 bits, and injection writes each into a word of its own. -/
theorem counterIsItsTwoHalves : Obligations.CounterIsItsTwoHalves := by
  intro s v
  refine ⟨?_, ?_, ?_, ?_⟩
  · rw [State.tHi, State.tLo, BitVec.extractLsb'_append_extractLsb'_eq_extractLsb' (start₁ := 0) (len₁ := 64) rfl]
    simp
  · simp only [State.tHi, State.tLo, BitVec.extractLsb'_toNat]
    have := s.t.isLt
    omega
  · simp [injectCounter, xor64, State.tLo]
  · simp [injectCounter, xor64, State.tHi]

end Sys2Proof.Machine

/-! SUPPORT. The statements on the streams and the block buffer (spec/20_memory.md): the canonical form of `BUF`, MemRead
and MemWrite, the bytes of a digest, and the command a step takes from the front of the stream. -/

namespace Sys2Proof.Machine

/-! ## A step takes one command (R61, R140) -/

/-- Settles O8, by the equation of a step whose stream begins with a whole frame. -/
theorem stepRunsDecodedCommand : Obligations.StepRunsDecodedCommand :=
  fun _ _ _ r f e => step_command r f e

/-! ## The canonical form of `BUF` (log 19) -/

theorem wf_tail {c : Host.Cell} {m : Memory} (h : Memory.wf (c :: m)) : m.wf :=
  ⟨h.1.tail, fun d hd => h.2 d (List.mem_cons_of_mem c hd)⟩

/-- A canonical memory lists exactly the addresses that do not read as an unlisted one, each with the byte it reads as. -/
theorem mem_iff_read {m : Memory} (h : m.wf) {a : Nat} {v : Byte} :
    (a, v) ∈ m ↔ m.read a = v ∧ v ≠ Memory.unlisted := by
  induction m with
  | nil =>
    simp only [List.not_mem_nil, Memory.read, false_iff]
    exact fun ⟨e, ne⟩ => ne e.symm
  | cons c m ih =>
    obtain ⟨k, b⟩ := c
    obtain ⟨rise, cells⟩ := h
    simp only [List.mem_cons, Prod.mk.injEq, Memory.read]
    by_cases here : k = a
    · subst here
      have only : (k, v) ∉ m := fun listed => lt_irrefl k ((List.pairwise_cons.1 rise).1 _ listed)
      have listed : b ≠ Memory.unlisted := (cells (k, b) List.mem_cons_self).2
      simp only [only, or_false, true_and, if_true]
      exact ⟨fun e => ⟨e.symm, e ▸ listed⟩, fun e => e.1.symm⟩
    · simp only [Ne.symm here, false_and, false_or, if_neg here]
      exact ih (wf_tail ⟨rise, cells⟩)

/-- Settles O24: the two memories list the same cells, and a list of rising addresses is its cells in order. -/
theorem canonicalMemoryIsUnique : Obligations.CanonicalMemoryIsUnique := by
  intro m n hm hn same
  have : Std.Irrefl fun x y : Host.Cell => x.1 < y.1 := ⟨fun x => lt_irrefl x.1⟩
  have : Std.Antisymm fun x y : Host.Cell => x.1 < y.1 := ⟨fun _ _ lt gt => absurd lt gt.asymm⟩
  refine hm.1.eq_of_mem_iff hn.1 fun ⟨a, v⟩ => ?_
  have inside : (a, v) ∈ m ∨ (a, v) ∈ n → a < 128 :=
    fun listed => listed.elim (fun l => (hm.2 _ l).1) fun l => (hn.2 _ l).1
  by_cases ha : a < 128
  · rw [mem_iff_read hm, mem_iff_read hn, same a ha]
  · exact iff_of_false (fun l => ha (inside (.inl l))) fun l => ha (inside (.inr l))

/-! ## MemRead and MemWrite (R52) -/

/-- The weight of a byte is 256 times the weight of the byte before it. -/
theorem byteWeight_succ (j : Nat) : 2 ^ (8 * (j + 1)) = 256 * 2 ^ (8 * j) := by ring

/-- The little-endian value of `n` bytes as the sum that R52 writes. -/
theorem leValue_map_range (byte : Nat → Byte) (n : Nat) :
    leValue ((List.range n).map byte) = ∑ j ∈ Finset.range n, (byte j).toNat * 2 ^ (8 * j) := by
  induction n generalizing byte with
  | zero => rfl
  | succ n ih =>
    rw [List.range_succ_eq_map, List.map_cons, List.map_map, leValue, ih, Finset.sum_range_succ', Finset.mul_sum]
    simp [byteWeight_succ, Nat.mul_left_comm, Nat.add_comm]

/-- Byte `j` of the `n` low bytes of `v` (R52). -/
theorem leBytes_getD {n j : Nat} (v : Nat) (h : j < n) : (leBytes n v).getD j 0 = BitVec.ofNat 8 (v / 2 ^ (8 * j)) := by
  induction n generalizing v j with
  | zero => exact absurd h (Nat.not_lt_zero j)
  | succ n ih =>
    cases j with
    | zero => simp [leBytes]
    | succ j => rw [leBytes, List.getD_cons_succ, ih _ (by omega), Nat.div_div_eq_div_mul, byteWeight_succ]

section
variable {m : Memory} {addr n : Nat}

theorem readLE_of_le (h : addr + n ≤ 128) :
    m.readLE addr n = some (leValue ((List.range n).map fun j => m.read (addr + j))) :=
  if_pos h

theorem writeLE_of_le (h : addr + n ≤ 128) (v : Nat) : m.writeLE addr n v = some (m.writeBytes addr (leBytes n v)) :=
  if_pos h

/-- MemRead has no meaning past byte 127 (log 20). -/
theorem readLE_of_gt (h : 128 < addr + n) : m.readLE addr n = none := if_neg (by omega)

/-- MemWrite has no meaning past byte 127 (log 20). -/
theorem writeLE_of_gt (h : 128 < addr + n) (v : Nat) : m.writeLE addr n v = none := if_neg (by omega)

end

/-- A stored byte string is what its own addresses read as. -/
theorem map_read_writeBytes (m : Memory) (addr : Nat) (bs : List Byte) :
    ((List.range bs.length).map fun j => (m.writeBytes addr bs).read (addr + j)) = bs := by
  refine List.ext_getElem (by simp) fun j hj hb => ?_
  rw [List.getElem_map, List.getElem_range, read_writeBytes, if_pos (by omega), Nat.add_sub_cancel_left]
  exact List.getD_eq_getElem bs 0 hb

/-- Settles O25: a read after a run of stored bytes, and the two directions of the byte order. -/
theorem memWriteThenMemRead : Obligations.MemWriteThenMemRead := by
  intro m addr n v
  refine ⟨fun h => ⟨?_, _, writeLE_of_le h v, fun j hj => ?_, fun a ha => ?_, ?_⟩,
    fun h => ⟨readLE_of_gt h, writeLE_of_gt h v⟩⟩
  · rw [readLE_of_le h, leValue_map_range]
  · rw [read_writeBytes, leBytes_length, if_pos (by omega), Nat.add_sub_cancel_left, leBytes_getD v hj]
  · rw [read_writeBytes, leBytes_length, if_neg (by omega)]
  · have back := map_read_writeBytes m addr (leBytes n v)
    rw [leBytes_length] at back
    rw [readLE_of_le h, back, leValue_leBytes, show 256 ^ n = 2 ^ (8 * n) from (pow_mul 2 8 n).symm]

/-! ## The digest (R54, R145) -/

theorem wordBytes_getElem? (w : Word) {j : Nat} (h : j < 8) : (wordBytes w)[j]? = some (wordByte w j) := by
  simp [wordBytes, h]

/-- Byte `k` of a run of words is byte `k mod 8` of word `k div 8`. -/
theorem flatMap_wordBytes_getElem? (words : List Word) (k : Nat) :
    (words.flatMap wordBytes)[k]? = words[k / 8]?.map fun w => wordByte w (k % 8) := by
  induction words generalizing k with
  | nil => rfl
  | cons w words ih =>
    rw [List.flatMap_cons]
    by_cases first : k < 8
    · rw [List.getElem?_append_left (by rwa [wordBytes_length]), wordBytes_getElem? w first, Nat.div_eq_of_lt first,
        Nat.mod_eq_of_lt first]
      rfl
    · obtain ⟨k, rfl⟩ := Nat.exists_eq_add_of_le' (not_lt.1 first)
      rw [List.getElem?_append_right (by rw [wordBytes_length]; omega), wordBytes_length, Nat.add_sub_cancel, ih,
        Nat.add_div_right k (by decide), Nat.add_mod_right, List.getElem?_cons_succ]

/-- The bytes of a chaining state (R54). -/
theorem chainBytes_getElem? (h : Chain) {k : Nat} (hw : k / 8 < 8) :
    (chainBytes h)[k]? = some (wordByte h[k / 8] (k % 8)) := by
  rw [chainBytes, flatMap_wordBytes_getElem?]
  simp [hw]

/-- Settles O27: the digest is the front of the chaining state's bytes. -/
theorem digestIsLittleEndianPrefix : Obligations.DigestIsLittleEndianPrefix := by
  refine fun s legal => ⟨serialize_length legal, fun k hk hw => ?_⟩
  rw [serialize, List.getElem?_take_of_lt hk, chainBytes_getElem? s.h hw, wordByte]

end Sys2Proof.Machine

/-! SUPPORT. The statements on the frames (spec/30_encoding.md): the header word as a number, the frame of a command as a
header and a payload, the length of a frame, and the round trip of the decoder and the encoder. -/

namespace Sys2Proof

open Machine

/-! ## The header word as a number (R70, R71) -/

/-- Two adjacent fields as one number. -/
theorem append_toNat {m n : Nat} (x : BitVec m) (y : BitVec n) : (x ++ y).toNat = x.toNat * 2 ^ n + y.toNat := by
  rw [BitVec.toNat_append, ← Nat.shiftLeft_add_eq_or_of_lt y.isLt, Nat.shiftLeft_eq]

theorem Header.toWord_toNat (h : Header) :
    h.toWord.toNat = h.op.toNat + h.nnf.toNat * 2 ^ 4 + h.kkf.toNat * 2 ^ 11 + h.rsv.toNat * 2 ^ 18 := by
  simp only [Header.toWord, append_toNat]
  ring

theorem Header.toWord_ofWord (w : BitVec 32) : (Header.ofWord w).toWord = w := by
  apply BitVec.eq_of_toNat_eq
  have := w.isLt
  simp only [Header.toWord_toNat, Header.ofWord, BitVec.extractLsb'_toNat, Nat.shiftRight_eq_div_pow]
  omega

/-- A header word's four bytes are a number of 32 bits. -/
theorem leValue_take_four_lt (bs : List Byte) : leValue (bs.take 4) < 2 ^ 32 :=
  calc leValue (bs.take 4) < 256 ^ (bs.take 4).length := leValue_lt _
    _ ≤ 256 ^ 4 := Nat.pow_le_pow_right (by decide) (List.length_take_le 4 bs)

/-- The four header bytes of a frame are those of its header. -/
theorem Header.toBytes_ofBytes {bs : List Byte} (long : 4 ≤ bs.length) : (Header.ofBytes bs).toBytes = bs.take 4 := by
  have four : (bs.take 4).length = 4 := List.length_take_of_le long
  rw [Header.toBytes, Header.ofBytes, Header.toWord_ofWord, BitVec.toNat_ofNat,
    Nat.mod_eq_of_lt (leValue_take_four_lt bs)]
  simpa only [four] using leBytes_leValue (bs.take 4)

section
variable (bs : List Byte)

/-- A field of the header word, read off the bytes as a number. -/
theorem field_toNat (start len : Nat) :
    ((BitVec.ofNat 32 (leValue (bs.take 4))).extractLsb' start len).toNat = leValue (bs.take 4) / 2 ^ start % 2 ^ len := by
  rw [BitVec.extractLsb'_toNat, BitVec.toNat_ofNat, Nat.mod_eq_of_lt (leValue_take_four_lt bs),
    Nat.shiftRight_eq_div_pow]

theorem Header.ofBytes_op : (Header.ofBytes bs).op.toNat = leValue (bs.take 4) % 2 ^ 4 := by
  rw [← Nat.div_one (leValue (bs.take 4))]
  exact field_toNat bs 0 4

theorem Header.ofBytes_nnf : (Header.ofBytes bs).nnf.toNat = leValue (bs.take 4) / 2 ^ 4 % 2 ^ 7 := field_toNat bs 4 7

theorem Header.ofBytes_kkf : (Header.ofBytes bs).kkf.toNat = leValue (bs.take 4) / 2 ^ 11 % 2 ^ 7 := field_toNat bs 11 7

theorem Header.ofBytes_rsv : (Header.ofBytes bs).rsv.toNat = leValue (bs.take 4) / 2 ^ 18 := by
  rw [← Nat.mod_eq_of_lt (show leValue (bs.take 4) / 2 ^ 18 < 2 ^ 14 by have := leValue_take_four_lt bs; omega)]
  exact field_toNat bs 18 14

end

/-- R78's three items, on the fields as numbers. -/
theorem Header.illegal_iff (h : Header) :
    h.illegal = true ↔ h.op.toNat = 0 ∨ 5 ≤ h.op.toNat ∨ h.rsv.toNat ≠ 0
      ∨ ((h.op.toNat = 2 ∨ h.op.toNat = 3) ∧ (h.nnf.toNat ≠ 0 ∨ h.kkf.toNat ≠ 0)) := by
  simp only [Header.illegal, Bool.or_eq_true, Bool.and_eq_true, Bool.not_eq_true', Bool.or_eq_false_iff, bne_iff_ne,
    beq_iff_eq, beq_eq_false_iff_ne, ne_eq, BitVec.toNat_eq, BitVec.reduceToNat]
  omega

/-- A legal header has one of four forms. -/
theorem Header.legal_cases {h : Header} (legal : h.illegal = false) :
    h = ⟨1, h.nnf, h.kkf, 0⟩ ∨ h = ⟨2, 0, 0, 0⟩ ∨ h = ⟨3, 0, 0, 0⟩ ∨ h = ⟨4, h.nnf, h.kkf, 0⟩ := by
  rw [← Bool.not_eq_true, Header.illegal_iff] at legal
  obtain ⟨op, nnf, kkf, rsv⟩ := h
  simp only [Header.mk.injEq, BitVec.toNat_eq, BitVec.reduceToNat, true_and] at legal ⊢
  omega

/-! ## A command's frame as its header and its payload (R73 to R76, R78) -/

/-- The header of a command's frame. -/
def Instr.header : Instr → Header
  | .init nn key => ⟨1, nn, keyLength key, 0⟩
  | .update _ => ⟨2, 0, 0, 0⟩
  | .finalize => ⟨3, 0, 0, 0⟩
  | .hash nn key _ => ⟨4, nn, keyLength key, 0⟩
  | .reserved h _ => h

/-- The bytes that follow the header in a command's frame. -/
def Instr.payload : Instr → List Byte
  | .init _ key => key
  | .update data => lengthField data ++ data
  | .finalize => []
  | .hash _ key data => key ++ (lengthField data ++ data)
  | .reserved _ p => p

theorem encode_eq_header_payload (i : Instr) : encode i = i.header.toBytes ++ i.payload := by
  cases i <;> simp [encode, Instr.header, Instr.payload]

theorem lengthField_length (data : List Byte) : (lengthField data).length = 8 := leBytes_length 8 _

/-- The frame of a well-formed command means that command. -/
theorem command_header_payload {i : Instr} (wf : i.wf = true) : command i.header i.payload = i := by
  cases i with
  | init nn key => simp [command, Instr.header, Instr.payload, Header.illegal]
  | update data =>
    have drop : (lengthField data ++ data).drop 8 = data := List.drop_left' (lengthField_length data)
    simp [command, Instr.header, Instr.payload, Header.illegal, drop]
  | finalize => rfl
  | hash nn key data =>
    obtain ⟨hk, -⟩ : key.length < 2 ^ 7 ∧ data.length < 2 ^ 64 := by simpa [Instr.wf, keyFits, dataFits] using wf
    have drop : (key ++ (lengthField data ++ data)).drop (key.length + 8) = data := by
      rw [← List.append_assoc]
      exact List.drop_left' (by simp [lengthField_length])
    simp [command, Instr.header, Instr.payload, Header.illegal, Laws.FrameLength.keyLength_toNat hk, drop]
  | reserved h p =>
    simp only [Instr.wf, Bool.and_eq_true] at wf
    exact if_pos wf.1

/-- The 7-bit length of a key that a header announces is the header's own. -/
theorem keyLength_eq {key : List Byte} {kkf : BitVec 7} (h : key.length = kkf.toNat) : keyLength key = kkf := by
  rw [keyLength, h, BitVec.ofNat_toNat, BitVec.setWidth_eq]

/-! ## The length of a frame, by its command selector (R77) -/

/-- The selectors R77 tells apart. -/
theorem selector_cases (op : BitVec 4) : op = 1 ∨ op = 2 ∨ op = 4 ∨ (op ≠ 1 ∧ op ≠ 2 ∧ op ≠ 4) := by
  tauto

section
variable {h : Header} {p : List Byte}

theorem payloadFits_key (op : h.op = 1) : h.payloadFits p = true ↔ p.length = h.kkf.toNat := by
  simp [Header.payloadFits, op]

theorem payloadFits_data (op : h.op = 2) :
    h.payloadFits p = true ↔ 8 ≤ p.length ∧ p.length = 8 + leValue (p.take 8) := by
  simp [Header.payloadFits, op]

theorem payloadFits_keyData (op : h.op = 4) :
    h.payloadFits p = true ↔ h.kkf.toNat + 8 ≤ p.length
      ∧ p.length = h.kkf.toNat + 8 + leValue ((p.drop h.kkf.toNat).take 8) := by
  simp [Header.payloadFits, op]

theorem payloadFits_bare (op : h.op ≠ 1 ∧ h.op ≠ 2 ∧ h.op ≠ 4) : h.payloadFits p = true ↔ p = [] := by
  obtain ⟨key, data, keyData⟩ := op
  rw [Header.payloadFits, if_neg key, if_neg data, if_neg keyData, beq_iff_eq, List.length_eq_zero_iff]

end

section
variable {bs : List Byte}

theorem frameLength_short (short : bs.length < 4) : frameLength bs = .error .header := if_pos short

variable (long : 4 ≤ bs.length)
include long

theorem frameLength_key (op : (Header.ofBytes bs).op = 1) : frameLength bs = .ok (4 + (Header.ofBytes bs).kkf.toNat) := by
  simp [frameLength, long, op]

theorem frameLength_data (op : (Header.ofBytes bs).op = 2) :
    frameLength bs = if bs.length < 12 then .error .length else .ok (12 + leValue ((bs.drop 4).take 8)) := by
  simp [frameLength, long, op]

theorem frameLength_keyData (op : (Header.ofBytes bs).op = 4) :
    frameLength bs =
      if bs.length < 4 + (Header.ofBytes bs).kkf.toNat + 8 then .error .length
      else .ok (4 + (Header.ofBytes bs).kkf.toNat + 8 + leValue ((bs.drop (4 + (Header.ofBytes bs).kkf.toNat)).take 8)) := by
  simp [frameLength, long, op]

theorem frameLength_bare
    (op : (Header.ofBytes bs).op ≠ 1 ∧ (Header.ofBytes bs).op ≠ 2 ∧ (Header.ofBytes bs).op ≠ 4) :
    frameLength bs = .ok 4 := by
  obtain ⟨key, data, keyData⟩ := op
  rw [frameLength, if_neg (not_lt.2 long), if_neg key, if_neg data, if_neg keyData]

end

/-- What lies `k` bytes into the payload of a frame of `n` bytes lies `4 + k` bytes into the stream. -/
theorem payload_field {bs : List Byte} {n k : Nat} (h : 4 + k + 8 ≤ n) :
    (((bs.take n).drop 4).drop k).take 8 = (bs.drop (4 + k)).take 8 := by
  rw [List.drop_drop, List.drop_take, List.take_take, Nat.min_eq_left (by omega)]

/-- A byte string that holds a whole frame has at least its header, and what follows the header is a whole payload. -/
theorem payloadFits_of_frameLength {bs : List Byte} {n : Nat} (h : frameLength bs = .ok n) (whole : n ≤ bs.length) :
    4 ≤ n ∧ (Header.ofBytes bs).payloadFits ((bs.take n).drop 4) = true := by
  have long : 4 ≤ bs.length := by
    by_contra short
    rw [frameLength_short (not_le.1 short)] at h
    cases h
  have length : ((bs.take n).drop 4).length = n - 4 := by simp [whole]
  obtain op | op | op | op := selector_cases (Header.ofBytes bs).op
  · obtain rfl : _ = n := Except.ok.inj ((frameLength_key long op).symm.trans h)
    rw [payloadFits_key op, length]
    omega
  · rw [frameLength_data long op] at h
    split at h
    · cases h
    · obtain rfl : _ = n := Except.ok.inj h
      rw [payloadFits_data op, length, ← List.drop_zero (l := (bs.take _).drop 4), payload_field (by omega),
        Nat.add_zero]
      omega
  · rw [frameLength_keyData long op] at h
    split at h
    · cases h
    · obtain rfl : _ = n := Except.ok.inj h
      rw [payloadFits_keyData op, length, payload_field (by omega)]
      omega
  · obtain rfl : _ = n := Except.ok.inj ((frameLength_bare long op).symm.trans h)
    rw [payloadFits_bare op, ← List.length_eq_zero_iff, length]
    omega

/-- A well-formed command's frame has R77's length, whatever bytes follow it. -/
theorem frameLength_encode {i : Instr} (wf : i.wf = true) (rest : List Byte) :
    frameLength (encode i ++ rest) = .ok (encode i).length := by
  cases i with
  | init nn key => exact Laws.FrameLength.init nn key wf rest
  | update data => exact Laws.FrameLength.update data wf rest
  | finalize => exact Laws.FrameLength.finalize wf rest
  | hash nn key data => exact Laws.FrameLength.hash nn key data wf rest
  | reserved h p => exact Laws.FrameLength.reserved h p wf rest

/-! ## Every whole payload is a command's -/

/-- Bytes that hold `LEN` and then as many bytes as it says are the frame's data behind its length. -/
theorem exists_data_of_leValue {p : List Byte} (eight : 8 ≤ p.length) (whole : p.length = 8 + leValue (p.take 8)) :
    ∃ data, data.length < 2 ^ 64 ∧ p = lengthField data ++ data := by
  have len : (p.take 8).length = 8 := List.length_take_of_le eight
  have data : (p.drop 8).length = leValue (p.take 8) := by rw [List.length_drop]; omega
  have field : lengthField (p.drop 8) = p.take 8 := by
    rw [lengthField, data]
    simpa only [len] using leBytes_leValue (p.take 8)
  refine ⟨p.drop 8, ?_, by rw [field, List.take_append_drop]⟩
  have bound := leValue_lt (p.take 8)
  rw [len] at bound
  rw [data]
  exact bound

/-- A header and a whole payload are those of a well-formed command. -/
theorem exists_instr_of_payloadFits {h : Header} {p : List Byte} (fits : h.payloadFits p = true) :
    ∃ i : Instr, i.wf = true ∧ i.header = h ∧ i.payload = p := by
  cases illegal : h.illegal with
  | true => exact ⟨.reserved h p, by simp [Instr.wf, illegal, fits], rfl, rfl⟩
  | false =>
    obtain e | e | e | e := Header.legal_cases illegal
    · rw [payloadFits_key (by rw [e])] at fits
      refine ⟨.init h.nnf p, ?_, ?_, rfl⟩
      · have := h.kkf.isLt
        simp [Instr.wf, keyFits, fits, this]
      · rw [Instr.header, keyLength_eq fits, ← e]
    · rw [payloadFits_data (by rw [e])] at fits
      obtain ⟨data, short, rfl⟩ := exists_data_of_leValue fits.1 fits.2
      exact ⟨.update data, by simpa [Instr.wf, dataFits] using short, e.symm, rfl⟩
    · rw [payloadFits_bare (by rw [e]; decide)] at fits
      exact ⟨.finalize, rfl, e.symm, fits.symm⟩
    · rw [payloadFits_keyData (by rw [e])] at fits
      obtain ⟨long, whole⟩ := fits
      have key : (p.take h.kkf.toNat).length = h.kkf.toNat := List.length_take_of_le (by omega)
      obtain ⟨data, short, split⟩ := exists_data_of_leValue (p := p.drop h.kkf.toNat)
        (by rw [List.length_drop]; omega) (by rw [List.length_drop]; omega)
      refine ⟨.hash h.nnf (p.take h.kkf.toNat) data, ?_, ?_, ?_⟩
      · have := h.kkf.isLt
        simp only [Instr.wf, keyFits, dataFits, key, Bool.and_eq_true, decide_eq_true_eq]
        exact ⟨this, short⟩
      · rw [Instr.header, keyLength_eq key, ← e]
      · rw [Instr.payload, ← split, List.take_append_drop]

/-! ## The decoder -/

section
variable {bs : List Byte}

theorem decode_of_error {missing : Truncation} (h : frameLength bs = .error missing) : decode bs = .error missing := by
  simp [decode, h]

theorem decode_of_ok {n : Nat} (h : frameLength bs = .ok n) :
    decode bs =
      if bs.length < n then .error .payload
      else .ok (command (Header.ofBytes bs) ((bs.take n).drop 4), bs.drop n) := by
  simp [decode, h]

/-- What decodes is a whole frame. -/
theorem frameLength_of_decode {i : Instr} {rest : List Byte} (h : decode bs = .ok (i, rest)) :
    ∃ n, frameLength bs = .ok n ∧ n ≤ bs.length
      ∧ i = command (Header.ofBytes bs) ((bs.take n).drop 4) ∧ rest = bs.drop n := by
  cases length : frameLength bs with
  | error missing => rw [decode_of_error length] at h; cases h
  | ok n =>
    rw [decode_of_ok length] at h
    split at h
    · cases h
    · cases h; exact ⟨n, rfl, by omega, rfl, rfl⟩

/-- What decodes is a well-formed command under the header it was read from, and the bytes are its frame (R78). -/
theorem decode_eq_ok {i : Instr} {rest : List Byte} (h : decode bs = .ok (i, rest)) :
    i.wf = true ∧ i.header = Header.ofBytes bs ∧ bs = encode i ++ rest := by
  obtain ⟨n, length, whole, rfl, rfl⟩ := frameLength_of_decode h
  obtain ⟨four, fits⟩ := payloadFits_of_frameLength length whole
  obtain ⟨j, wf, header, payload⟩ := exists_instr_of_payloadFits fits
  have meaning : command (Header.ofBytes bs) ((bs.take n).drop 4) = j := by
    rw [← header, ← payload, command_header_payload wf]
  have front : (Header.ofBytes bs).toBytes = (bs.take n).take 4 := by
    rw [Header.toBytes_ofBytes (by omega), List.take_take, Nat.min_eq_left four]
  rw [meaning]
  refine ⟨wf, header, ?_⟩
  rw [encode_eq_header_payload, header, payload, front, List.take_append_drop, List.take_append_drop]

end

/-- The decoder gives a well-formed command back from its frame, and leaves what follows. -/
theorem decode_encode {i : Instr} (wf : i.wf = true) (rest : List Byte) : decode (encode i ++ rest) = .ok (i, rest) := by
  have header : Header.ofBytes (encode i ++ rest) = i.header := by
    rw [encode_eq_header_payload, List.append_assoc, Header.ofBytes_toBytes]
  have payload : (encode i).drop 4 = i.payload := by
    rw [encode_eq_header_payload, Laws.FrameLength.drop_header]
  rw [decode_of_ok (frameLength_encode wf rest), if_neg (by simp), header, List.take_left, List.drop_left, payload,
    command_header_payload wf]

/-- Settles O1: the frame is a header and a payload, and the decoder finds both again. -/
theorem decodeOfEncode : Obligations.DecodeOfEncode := fun _ wf rest => decode_encode wf rest

/-- Settles O2: a whole payload under any header is a well-formed command's, and a frame means one command only. -/
theorem encodeOfDecode : Obligations.EncodeOfDecode := by
  intro bs i rest h
  obtain ⟨wf, -, frame⟩ := decode_eq_ok h
  exact ⟨wf, frame⟩

end Sys2Proof

/-! SUPPORT. The statements that rest on the round trip (spec/30_encoding.md): the frame's length and the illegal headers
as numbers, frames with illegal lengths, table words, the example frames and the assembler; and the two other interfaces,
the responses and the engine port. -/

namespace Sys2Proof

open Machine

/-! ## Frames read off the header word (R77 to R79) -/

/-- A frame that decodes is consumed at its length whatever its other bits are, and a shorter byte string is refused. -/
theorem decode_of_frameLength {bs : List Byte} {n : Nat} (h : frameLength bs = .ok n) :
    if n ≤ bs.length then ∃ i, decode bs = .ok (i, bs.drop n) else decode bs = .error .payload := by
  rw [decode_of_ok h]
  split
  · next whole => exact ⟨_, if_neg (not_lt.2 whole)⟩
  · next short => exact if_pos (not_le.1 short)

/-- Settles O4: one equation of the frame's length for each selector, then the decoder on a frame of that length. -/
theorem frameLengthFromHeader : Obligations.FrameLengthFromHeader := by
  refine ⟨fun bs short => decode_of_error (frameLength_short short), fun bs long => ?_,
    fun s missing r f c e => step_truncated r f c e⟩
  simp only [← Header.ofBytes_op, ← Header.ofBytes_kkf]
  obtain op | op | op | op := selector_cases (Header.ofBytes bs).op
  · simpa [op] using decode_of_frameLength (frameLength_key long op)
  · have length := frameLength_data long op
    by_cases whole : 12 ≤ bs.length
    · rw [if_neg (by omega)] at length
      simpa [op, whole] using decode_of_frameLength length
    · rw [if_pos (by omega)] at length
      simpa [op, whole] using decode_of_error length
  · have length := frameLength_keyData long op
    by_cases whole : 12 + (Header.ofBytes bs).kkf.toNat ≤ bs.length
    · rw [if_neg (by omega)] at length
      simpa [op, whole] using decode_of_frameLength length
    · rw [if_pos (by omega)] at length
      simpa [op, whole] using decode_of_error length
  · have length := decode_of_frameLength (frameLength_bare long op)
    simp only [ne_eq, BitVec.toNat_eq, BitVec.reduceToNat] at op
    obtain ⟨key, data, keyData⟩ := op
    simpa [key, data, keyData] using length

/-- A well-formed command is `<reserved>` exactly when the header of its frame is illegal. -/
theorem reserved_iff_illegal {i : Instr} (wf : i.wf = true) : (∃ h p, i = .reserved h p) ↔ i.header.illegal = true := by
  cases i with
  | init nn key => simp [Instr.header, Header.illegal]
  | update data => simp [Instr.header, Header.illegal]
  | finalize => simp [Instr.header, Header.illegal]
  | hash nn key data => simp [Instr.header, Header.illegal]
  | reserved h p =>
    simp only [Instr.wf, Bool.and_eq_true] at wf
    simp [Instr.header, wf.1]

/-- UPDATE with `LEN = 0` on an open session absorbs nothing (R78, R147). -/
theorem exec_update_nil {s : State} (f : s.fault = false) (o : s.phase = .opened)
    (range : s.t.toNat + s.blen.val < 2 ^ 128) : exec (.update []) s = .next (s.answered .ok []) := by
  have opened : ¬sessionClosed s = true := by simp [sessionClosed_iff, o]
  have fits : ¬counterExceeded s ([] : List Byte).length = true := by simpa [counterExceeded_iff] using range
  rw [exec_update f, if_neg opened, if_neg fits, absorbAll, List.foldl_nil]

/-- Settles O5: a decoded command is well formed under the header it was read from, and R78's items are numbers of it. -/
theorem reservedExactlyIllegalHeaders : Obligations.ReservedExactlyIllegalHeaders := by
  refine ⟨fun bs i rest h => ?_, fun s h p f => exec_reserved f h p, fun s f o range => exec_update_nil f o range⟩
  obtain ⟨wf, header, -⟩ := decode_eq_ok h
  simp only [← Header.ofBytes_op, ← Header.ofBytes_nnf, ← Header.ofBytes_kkf, ← Header.ofBytes_rsv]
  rw [reserved_iff_illegal wf, header, Header.illegal_iff]

/-- A step on the frame of a well-formed command runs that command and consumes the frame whole. -/
theorem step_encode {s : State} (r : s.rst = false) (f : s.fault = false) {i : Instr} (wf : i.wf = true)
    (rest : List Byte) : step { s with commands := encode i ++ rest } = exec i { s with commands := rest } :=
  step_command (s := { s with commands := encode i ++ rest }) r f (decode_encode wf rest)

section
variable {s : State} (f : s.fault = false) {nn : BitVec 7} {key : List Byte} (illegal : configIllegal nn key = true)
include f illegal

/-- INIT with an illegal length answers ConfigurationError and nothing else (R181, R183). -/
theorem exec_init_illegal : exec (.init nn key) s = .next (s.answered .configError []) := by
  rw [exec_init f, if_pos illegal]

/-- HASH with an illegal length answers ConfigurationError and nothing else (R181, R183). -/
theorem exec_hash_illegal (data : List Byte) : exec (.hash nn key data) s = .next (s.answered .configError []) := by
  rw [exec_hash f, if_pos illegal]

end

/-- Settles O6: the frames are those of well-formed commands, and both meanings test the same condition. -/
theorem outOfRangeLengthsAreLegalFrames : Obligations.OutOfRangeLengthsAreLegalFrames := by
  intro s nn key data rest r f short countable range
  have illegal : configIllegal nn key = true := by
    rw [configIllegal_iff]
    omega
  have initWf : (Instr.init nn key).wf = true := by simpa [Instr.wf, keyFits] using short
  have hashWf : (Instr.hash nn key data).wf = true := by simpa [Instr.wf, keyFits, dataFits] using ⟨short, countable⟩
  have clear : State.fault { s with commands := rest } = false := f
  exact ⟨(step_encode r f initWf rest).trans (exec_init_illegal clear illegal),
    (step_encode r f hashWf rest).trans (exec_hash_illegal clear illegal data)⟩

/-! ## Table words (log 15) -/

/-- The low bytes of a number, cut in two. -/
theorem leBytes_add (m n v : Nat) : leBytes (m + n) v = leBytes m v ++ leBytes n (v / 256 ^ m) := by
  induction m generalizing v with
  | zero => simp [leBytes]
  | succ m ih =>
    rw [Nat.add_right_comm, leBytes, leBytes, ih, Nat.div_div_eq_div_mul, Nat.pow_succ', List.cons_append]

/-- A field of a number's bytes is that part of the number. -/
theorem leValue_field (v : Nat) {k n len : Nat} (h : k + n ≤ len) :
    leValue (((leBytes len v).drop k).take n) = v / 2 ^ (8 * k) % 2 ^ (8 * n) := by
  obtain ⟨r, rfl⟩ := Nat.exists_eq_add_of_le h
  rw [Nat.add_assoc, leBytes_add, List.drop_left' (leBytes_length k v), leBytes_add,
    List.take_left' (leBytes_length n _), leValue_leBytes, pow_mul, pow_mul]
  rfl

section
variable {v : Nat}

theorem tableLength_key (op : v % 2 ^ 4 = 1) : tableLength v = 4 + v / 2 ^ 11 % 2 ^ 7 := by
  simp only [tableLength, op, Nat.shiftRight_eq_div_pow]

theorem tableLength_data (op : v % 2 ^ 4 = 2) : tableLength v = 12 + v / 2 ^ 32 % 2 ^ 64 := by
  simp only [tableLength, op, Nat.shiftRight_eq_div_pow]

theorem tableLength_keyData (op : v % 2 ^ 4 = 4) :
    tableLength v = 4 + v / 2 ^ 11 % 2 ^ 7 + 8 + v / 2 ^ (8 * (4 + v / 2 ^ 11 % 2 ^ 7)) % 2 ^ 64 := by
  simp only [tableLength, op, Nat.shiftRight_eq_div_pow]

theorem tableLength_bare (op : v % 2 ^ 4 ≠ 1 ∧ v % 2 ^ 4 ≠ 2 ∧ v % 2 ^ 4 ≠ 4) : tableLength v = 4 := by
  obtain ⟨key, data, keyData⟩ := op
  unfold tableLength
  split
  · contradiction
  · contradiction
  · contradiction
  · rfl

theorem four_le_tableLength : 4 ≤ tableLength v := by
  obtain op | op | op | op :
      v % 2 ^ 4 = 1 ∨ v % 2 ^ 4 = 2 ∨ v % 2 ^ 4 = 4 ∨ (v % 2 ^ 4 ≠ 1 ∧ v % 2 ^ 4 ≠ 2 ∧ v % 2 ^ 4 ≠ 4) := by tauto
  · rw [tableLength_key op]; omega
  · rw [tableLength_data op]; omega
  · rw [tableLength_keyData op]; omega
  · rw [tableLength_bare op]

end

/-- The decoder's length of a table word's frame is the length it was laid out with. -/
theorem frameLength_table (v : Nat) : frameLength (leBytes (tableLength v) v) = .ok (tableLength v) := by
  have long : 4 ≤ (leBytes (tableLength v) v).length := (leBytes_length _ v).symm ▸ four_le_tableLength
  have word : leValue ((leBytes (tableLength v) v).take 4) = v % 2 ^ 32 := by
    have field := leValue_field v (k := 0) (n := 4) (four_le_tableLength (v := v))
    rwa [List.drop_zero, Nat.mul_zero, pow_zero, Nat.div_one] at field
  have selector : (Header.ofBytes (leBytes (tableLength v) v)).op.toNat = v % 2 ^ 4 := by
    rw [Header.ofBytes_op, word]
    omega
  have key : (Header.ofBytes (leBytes (tableLength v) v)).kkf.toNat = v / 2 ^ 11 % 2 ^ 7 := by
    rw [Header.ofBytes_kkf, word]
    omega
  obtain op | op | op | op := selector_cases (Header.ofBytes (leBytes (tableLength v) v)).op
  · have row := tableLength_key (v := v) (by rw [← selector, op]; rfl)
    rw [frameLength_key long op, key, row]
  · have row := tableLength_data (v := v) (by rw [← selector, op]; rfl)
    rw [frameLength_data long op, leBytes_length, if_neg (by omega), leValue_field v (by omega), row]
  · have row := tableLength_keyData (v := v) (by rw [← selector, op]; rfl)
    rw [frameLength_keyData long op, leBytes_length, key, if_neg (by omega), leValue_field v (by omega), row]
  · have row := tableLength_bare (v := v) (by simpa [BitVec.toNat_eq, selector] using op)
    rw [frameLength_bare long op, row]

/-- The frame of a table word is one whole frame. -/
theorem decode_tableFrame (nbits w : Nat) : ∃ i, decode (tableFrame nbits w) = .ok (i, []) := by
  have length : frameLength (tableFrame nbits w) = .ok (tableFrame nbits w).length := by
    rw [tableFrame, leBytes_length]
    exact frameLength_table _
  have taken := decode_of_frameLength length
  rwa [if_pos le_rfl, List.drop_length] at taken

/-- Settles O7: a table word's frame is whole, so it is a well-formed command's, and that command's is the next step. -/
theorem tableWordIsNextCommand : Obligations.TableWordIsNextCommand := by
  intro s nbits w f
  obtain ⟨i, alone⟩ := decode_tableFrame nbits w
  obtain ⟨wf, -, frame⟩ := decode_eq_ok alone
  have taken : decode (tableFrame nbits w ++ s.commands) = .ok (i, s.commands) := by
    rw [frame, List.append_nil, decode_encode wf]
  exact ⟨i, by rw [decodeTableWord, alone], wf, step_command (s := s.withFetchWord nbits w) rfl f taken⟩

/-! ## The example frames and the assembler (R84, R85) -/

/-- A row of R85: the encoding is checked byte by byte, and the decoding is the round trip. -/
theorem encode_and_decode {i : Instr} {frame : List Byte} (wf : i.wf = true) (encodes : encode i = frame) :
    encode i = frame ∧ decode frame = .ok (i, []) := by
  have decodes := decode_encode wf []
  rw [List.append_nil, encodes] at decodes
  exact ⟨encodes, decodes⟩

/-- Settles O3, by R85's bytes of each row and the round trip. -/
theorem exampleFramesDecode : Obligations.ExampleFramesDecode := by
  refine ⟨?_, ?_, ?_, ?_, ?_, ?_, ?_, ?_, ?_,
    fun _ f => ⟨exec_init_illegal f (by decide), exec_init_illegal f (by decide)⟩⟩
  all_goals exact encode_and_decode (by decide) (by decide)

/-- The four header bytes of INIT and HASH, as one number. -/
theorem toBytes_keyLength (op : BitVec 4) (nn : BitVec 7) {key : List Byte} (short : key.length < 128) :
    Header.toBytes ⟨op, nn, keyLength key, 0⟩ = leBytes 4 (op.toNat + nn.toNat * 2 ^ 4 + key.length * 2 ^ 11) := by
  simp [Header.toBytes, Header.toWord_toNat, Laws.FrameLength.keyLength_toNat short]

/-- Byte `j` of `pat(n)`. -/
theorem patBytes_getD {n j : Nat} (h : j < n) : ((patBytes n).getD j 0).toNat = j % 251 := by
  have byte : (patBytes n).getD j 0 = BitVec.ofNat 8 (j % 251) := by simp [patBytes, h]
  rw [byte, BitVec.toNat_ofNat]
  omega

/-- Settles O52: each line is a command's frame, and its header bytes are those of a number. -/
theorem assemblerLines : Obligations.AssemblerLines := by
  refine ⟨fun nn key short => ?_, fun data _ => ?_, by decide, fun nn key data short _ => ?_, fun _ => rfl,
    fun n => ⟨by simp [patBytes], fun j h => patBytes_getD h⟩, fun _ _ => List.flatMap_cons⟩
  · rw [assembleLine, encode, toBytes_keyLength 1 nn short]
    rfl
  · rw [assembleLine, encode, lengthField, show Header.toBytes ⟨2, 0, 0, 0⟩ = [2, 0, 0, 0] by decide]
  · rw [assembleLine, encode, toBytes_keyLength 4 nn short]
    rfl

/-! ## One response for every command (R80, R81) -/

/-- Settles O43, by the inversion lemma of each command: CounterOverflow is the one outcome without a response. -/
theorem oneResponsePerCommand : Obligations.OneResponsePerCommand := by
  refine ⟨⟨rfl, rfl, rfl, rfl, fun _ => rfl⟩, fun i s t h => ?_⟩
  cases i with
  | init nn key =>
    obtain ⟨f, ⟨-, rfl⟩ | ⟨-, rfl⟩⟩ := execInit_cases h
    · exact .inr ⟨f, .configError, [], rfl, by simp⟩
    · exact .inr ⟨by simp [f], .ok, [], by simp, by simp⟩
  | update data =>
    obtain ⟨f, ⟨-, rfl⟩ | ⟨-, -, rfl⟩ | ⟨-, -, rfl⟩⟩ := execUpdate_cases h
    · exact .inr ⟨f, .sessionClosed, [], rfl, by simp⟩
    · exact .inl ⟨rfl, rfl, data, rfl⟩
    · exact .inr ⟨by simp [f], .ok, [], by simp, by simp⟩
  | finalize =>
    obtain ⟨f, ⟨-, rfl⟩ | ⟨-, rfl⟩⟩ := execFinalize_cases h
    · exact .inr ⟨f, .sessionClosed, [], rfl, by simp⟩
    · exact .inr ⟨by simp [f], .ok, serialize (compressLast s), rfl, by simp⟩
  | hash nn key data =>
    obtain ⟨f, ⟨-, rfl⟩ | ⟨-, rfl⟩⟩ := execHash_cases h
    · exact .inr ⟨f, .configError, [], rfl, by simp⟩
    · exact .inr ⟨by simp [f], .ok, serialize (hashed nn key data s), by simp, by simp⟩
  | reserved hd p =>
    obtain ⟨f, rfl⟩ := execReserved_cases (hd := hd) (p := p) h
    exact .inr ⟨f, .illegalCommand, [], rfl, by simp⟩

/-! ## The engine port (R82) -/

/-- A word of two adjacent buses, the low one a single word, that lies in the high one. -/
theorem extractWord_append {n : Nat} (x : BitVec n) (w : Word) (i : Nat) :
    (x ++ w).extractLsb' (64 * (i + 1)) 64 = x.extractLsb' (64 * i) 64 := by
  rw [BitVec.extractLsb'_append_eq_of_le (by omega)]
  rfl

/-- Word `i` of the output bus: as many words as its index lie below it. -/
theorem chainToBus_word (h : Chain) {i : Nat} (hi : i < 8) : (chainToBus h).extractLsb' (64 * i) 64 = h[i] := by
  change BitVec.extractLsb' (n := 64 + 64 + 64 + 64 + 64 + 64 + 64 + 64) (64 * i) 64
    (h[7] ++ h[6] ++ h[5] ++ h[4] ++ h[3] ++ h[2] ++ h[1] ++ h[0]) = h[i]
  interval_cases i <;>
    simp only [extractWord_append, Nat.mul_zero, BitVec.extractLsb'_append_eq_right, BitVec.extractLsb'_eq_self]

/-- The words of a chaining state read off a bus. -/
theorem busToChain_eq {bus : BitVec 512} {h : Chain} (words : ∀ i, (hi : i < 8) → h[i] = bus.extractLsb' (64 * i) 64) :
    busToChain bus = h := by
  refine Vector.ext fun i hi => ?_
  rw [words i hi, busToChain, Vector.getElem_ofFn]

/-- The words of a message block read off a bus. -/
theorem busToBlock_eq {bus : BitVec 1024} {m : Block}
    (words : ∀ i, (hi : i < 16) → m[i] = bus.extractLsb' (64 * i) 64) : busToBlock bus = m := by
  refine Vector.ext fun i hi => ?_
  rw [words i hi, busToBlock, Vector.getElem_ofFn]

/-- Settles O23: the input buses are read as the words they hold, and the output bus holds the words of F. -/
theorem enginePortCarriesCompress : Obligations.EnginePortCarriesCompress := by
  intro hIn mIn tIn fIn h m chain block i hi
  rw [enginePort, chainToBus_word _ hi, busToChain_eq chain, busToBlock_eq block]
  rfl

end Sys2Proof

/-! SUPPORT. The statements on the compression engine (spec/40_compression_engine.md): the word operators, what G computes
and what it leaves alone, the two passes in any order, the schedule, and the steps of F around the rounds. -/

namespace Sys2Proof.Machine

/-! ## The word operators (R101 to R104) -/

/-- Settles O14: a machine sum is the sum of the numbers modulo `2^64`, and a second reduction changes nothing. -/
theorem additionDiscardsCarry : Obligations.AdditionDiscardsCarry := by
  refine ⟨fun a b => BitVec.toNat_add a b, fun a b x => ?_, by decide, by decide⟩
  rw [add64x3, BitVec.toNat_add, BitVec.toNat_add, Nat.mod_add_mod]

theorem not64_eq (a : Word) : not64 a = ~~~a := BitVec.xor_allOnes

/-- Settles O15, by the library's bits of `^^^` and `~~~`. -/
theorem xorAndNotAreBitwise : Obligations.XorAndNotAreBitwise := by
  intro a b i hi
  constructor
  · rw [xor64, BitVec.getLsbD_xor]
  · simp [not64_eq, hi]

/-- The two shifts are the library's rotation, for amounts below the width. -/
theorem rotr64_eq_rotateRight (x : Word) {n : Nat} (h : n < 64) : rotr64 x n = x.rotateRight n := by
  rw [rotr64, BitVec.rotateRight_def, Nat.mod_eq_of_lt h]

/-- A rotation moves bit `(i + n) mod 64` to bit `i`: the low bits come from above, the high ones wrap around. -/
theorem rotr64_getLsbD (x : Word) {n i : Nat} (hn : n < 64) (hi : i < 64) :
    (rotr64 x n).getLsbD i = x.getLsbD ((i + n) % 64) := by
  rw [rotr64_eq_rotateRight x hn, BitVec.getLsbD_rotateRight, Nat.mod_eq_of_lt hn]
  by_cases low : i < 64 - n
  · rw [decide_eq_true low, cond_true, Nat.mod_eq_of_lt (by omega), Nat.add_comm]
  · have wrapped : i - (64 - n) = (i + n) % 64 := by omega
    rw [decide_eq_false low, cond_false, decide_eq_true hi, Bool.true_and, wrapped]

/-- Settles O16: the four amounts lie below the width, and by 63 the two shifts are those of a rotation left by 1. -/
theorem rotationMovesEveryBit : Obligations.RotationMovesEveryBit := by
  refine ⟨fun x n hn => ⟨rfl, fun i hi => rotr64_getLsbD x ?_ hi⟩, fun x => BitVec.or_comm _ _, by decide⟩
  have bounded : ∀ n ∈ [32, 24, 16, 63], n < 64 := by decide
  exact bounded n hn

/-! ## What G computes and what it leaves alone (R109) -/

/-- The four words G leaves at its indices, of the four words it finds there (R109). -/
def mixWords (x y va vb vc vd : Word) : Word × Word × Word × Word :=
  let a1 := va + vb + x
  let d1 := (vd ^^^ a1).rotateRight 32
  let c1 := vc + d1
  let b1 := (vb ^^^ c1).rotateRight 24
  let a2 := a1 + b1 + y
  let d2 := (d1 ^^^ a2).rotateRight 16
  let c2 := c1 + d2
  (a2, (b1 ^^^ c2).rotateRight 63, c2, d2)

theorem word_set_same (v : Work) (i : Fin 16) (w : Word) : (v.set i w)[i] = w := Vector.getElem_set_self i.isLt

theorem word_set_other (v : Work) {i j : Fin 16} (w : Word) (h : i ≠ j) : (v.set i w)[j] = v[j] :=
  Vector.getElem_set_ne i.isLt j.isLt (Fin.val_ne_of_ne h)

section
variable {a b c d : Fin 16}

/-- G writes none but its four words. -/
theorem mixG_of_notMem (x y : Word) (v : Work) {i : Fin 16} (h : i ∉ [a, b, c, d]) : (mixG a b c d x y v)[i] = v[i] := by
  obtain ⟨ha, hb, hc, hd⟩ : a ≠ i ∧ b ≠ i ∧ c ≠ i ∧ d ≠ i := by
    simpa only [List.mem_cons, List.not_mem_nil, or_false, not_or, ne_comm] using h
  simp only [mixG, word_set_other _ _ ha, word_set_other _ _ hb, word_set_other _ _ hc, word_set_other _ _ hd]

/-- What G leaves at its four indices, which are distinct: no step aliases two of its operands. -/
theorem mixG_words (x y : Word) (v : Work) (distinct : [a, b, c, d].Nodup) :
    ((mixG a b c d x y v)[a], (mixG a b c d x y v)[b], (mixG a b c d x y v)[c], (mixG a b c d x y v)[d])
      = mixWords x y v[a] v[b] v[c] v[d] := by
  obtain ⟨⟨ab, ac, ad⟩, ⟨bc, bd⟩, cd⟩ : (a ≠ b ∧ a ≠ c ∧ a ≠ d) ∧ (b ≠ c ∧ b ≠ d) ∧ c ≠ d := by
    simpa using distinct
  simp only [mixG, mixWords, add64, add64x3, xor64, rotr64_eq_rotateRight, Nat.reduceLT, word_set_same, word_set_other,
    ne_eq, ab, ac, ad, bc, bd, cd, ab.symm, ac.symm, ad.symm, bc.symm, bd.symm, cd.symm, not_false_eq_true]

/-- G reads none but its four words. -/
theorem mixG_congr (x y : Word) {v w : Work} (distinct : [a, b, c, d].Nodup) (agree : ∀ i ∈ [a, b, c, d], v[i] = w[i]) :
    ∀ i ∈ [a, b, c, d], (mixG a b c d x y v)[i] = (mixG a b c d x y w)[i] := by
  simp only [List.forall_mem_cons, List.not_mem_nil, false_implies, implies_true, and_true] at agree ⊢
  obtain ⟨ha, hb, hc, hd⟩ := agree
  have words := mixG_words x y v distinct
  rw [ha, hb, hc, hd, ← mixG_words x y w distinct] at words
  simpa only [Prod.mk.injEq] using words

end

/-- Settles O17: the values are those of `mixG_words`, the rest is `mixG_of_notMem`, and both cases are run on four words. -/
theorem mixGWritesFourWords : Obligations.MixGWritesFourWords := by
  refine ⟨fun a b c d x y v distinct => ?_, fun a b c d v distinct ha hb hc hd => ?_,
    fun a b c d v distinct ha hb hc hd => ?_⟩
  · have words := mixG_words x y v distinct
    simp only [mixWords, Prod.mk.injEq] at words
    obtain ⟨wa, wb, wc, wd⟩ := words
    exact ⟨wa, wb, wc, wd, fun i hi => mixG_of_notMem x y v hi⟩
  · have words := mixG_words 0 0 v distinct
    rw [ha, hb, hc, hd, show mixWords 0 0 0 0 0 0 = (0, 0, 0, 0) by decide] at words
    simpa only [Prod.mk.injEq] using words
  · have words := mixG_words 5 6 v distinct
    rw [ha, hb, hc, hd, show mixWords 5 6 1 2 3 4
      = (0x0000010000000C0E, 0x181C021802181806, 0x0C0E000C010C0003, 0x0C0E0000010C0000) by decide] at words
    simpa only [Prod.mk.injEq] using words

/-! ## The applications of a pass, in any order (R111, R112) -/

/-- One application of G: the four indices and the two message words. -/
structure Mixing where
  a : Fin 16
  b : Fin 16
  c : Fin 16
  d : Fin 16
  x : Word
  y : Word

namespace Mixing

/-- The four words of the work vector that it reads and writes. -/
def indices (p : Mixing) : List (Fin 16) := [p.a, p.b, p.c, p.d]

/-- Its effect on the work vector. -/
def run (p : Mixing) : Work → Work := mixG p.a p.b p.c p.d p.x p.y

variable {p q : Mixing}

theorem run_of_notMem (v : Work) {i : Fin 16} (h : i ∉ p.indices) : (p.run v)[i] = v[i] := mixG_of_notMem p.x p.y v h

/-- Another application that writes elsewhere leaves no trace in this one's words. -/
theorem run_run_of_mem (distinct : p.indices.Nodup) (apart : p.indices.Disjoint q.indices) (v : Work) {i : Fin 16}
    (h : i ∈ p.indices) : (p.run (q.run v))[i] = (p.run v)[i] :=
  mixG_congr p.x p.y distinct (fun _ hj => run_of_notMem v (apart hj)) i h

/-- Two applications on disjoint indices commute: each word is written by one of them at most. -/
theorem run_commute (hp : p.indices.Nodup) (hq : q.indices.Nodup) (apart : p.indices.Disjoint q.indices) :
    Function.Commute p.run q.run := by
  intro v
  refine Vector.ext fun n hn => ?_
  change (p.run (q.run v))[(⟨n, hn⟩ : Fin 16)] = (q.run (p.run v))[(⟨n, hn⟩ : Fin 16)]
  by_cases inP : ⟨n, hn⟩ ∈ p.indices
  · rw [run_run_of_mem hp apart v inP, run_of_notMem _ (apart inP)]
  by_cases inQ : ⟨n, hn⟩ ∈ q.indices
  · rw [run_of_notMem _ inP, run_run_of_mem hq apart.symm v inQ]
  · rw [run_of_notMem _ inP, run_of_notMem _ inQ, run_of_notMem _ inQ, run_of_notMem _ inP]

/-- Applications on pairwise disjoint indices give one result in every order. -/
theorem foldl_run_of_perm {ps : List Mixing} (distinct : (ps.flatMap indices).Nodup) {order : List (Work → Work)}
    (perm : order.Perm (ps.map run)) (v : Work) :
    order.foldl (fun w g => g w) v = (ps.map run).foldl (fun w g => g w) v := by
  obtain ⟨each, apart⟩ := List.nodup_flatMap.1 distinct
  have pairwise : (ps.map run).Pairwise Function.Commute :=
    List.pairwise_map.2 (apart.imp_of_mem fun hp hq => run_commute (each _ hp) (each _ hq))
  have symm : Std.Symm (Function.Commute (α := Work)) := ⟨fun _ _ => Function.Commute.symm⟩
  have commute := pairwise.forall_of_forall fun g _ => Function.Commute.refl g
  exact perm.foldl_eq' (fun f hf g hg z => commute (perm.subset hg) (perm.subset hf) z) v

end Mixing

/-- The four applications of the column pass of a schedule row (R111). -/
def columnMixings (m : Block) (s : Vector (Fin 16) 16) : List Mixing :=
  [⟨0, 4, 8, 12, m[s[0]], m[s[1]]⟩, ⟨1, 5, 9, 13, m[s[2]], m[s[3]]⟩, ⟨2, 6, 10, 14, m[s[4]], m[s[5]]⟩,
    ⟨3, 7, 11, 15, m[s[6]], m[s[7]]⟩]

/-- The four applications of the diagonal pass of a schedule row (R112). -/
def diagonalMixings (m : Block) (s : Vector (Fin 16) 16) : List Mixing :=
  [⟨0, 5, 10, 15, m[s[8]], m[s[9]]⟩, ⟨1, 6, 11, 12, m[s[10]], m[s[11]]⟩, ⟨2, 7, 8, 13, m[s[12]], m[s[13]]⟩,
    ⟨3, 4, 9, 14, m[s[14]], m[s[15]]⟩]

section
variable (m : Block) (s : Vector (Fin 16) 16)

theorem columnPass_eq_foldl (v : Work) : columnPass m s v = ((columnMixings m s).map Mixing.run).foldl (fun w g => g w) v :=
  rfl

theorem diagonalPass_eq_foldl (v : Work) :
    diagonalPass m s v = ((diagonalMixings m s).map Mixing.run).foldl (fun w g => g w) v :=
  rfl

theorem columnMixings_nodup : ((columnMixings m s).flatMap Mixing.indices).Nodup := by
  change ([0, 4, 8, 12, 1, 5, 9, 13, 2, 6, 10, 14, 3, 7, 11, 15] : List (Fin 16)).Nodup
  decide

theorem diagonalMixings_nodup : ((diagonalMixings m s).flatMap Mixing.indices).Nodup := by
  change ([0, 5, 10, 15, 1, 6, 11, 12, 2, 7, 8, 13, 3, 4, 9, 14] : List (Fin 16)).Nodup
  decide

end

/-- Settles O18: the sixteen indices of a pass are all different, so its four applications commute. -/
theorem passOrderDoesNotMatter : Obligations.PassOrderDoesNotMatter := by
  intro m s v
  constructor
  · intro order perm
    rw [columnPass_eq_foldl]
    exact Mixing.foldl_run_of_perm (columnMixings_nodup m s) perm v
  · intro order perm
    rw [diagonalPass_eq_foldl]
    exact Mixing.foldl_run_of_perm (diagonalMixings_nodup m s) perm v

/-! ## The schedule (R106, R107) -/

/-- Settles O19: the rows are checked one by one, and a row of the longer table is the row itself or one of its copies. -/
theorem scheduleRows : Obligations.ScheduleRows := by
  refine ⟨by decide, fun _ => rfl, rfl, rfl, fun r hr => ?_⟩
  by_cases first : r < 10
  · simp only [sigmaRow, Nat.mod_eq_of_lt first, Vector.getElem_append_left first]
  · obtain rfl | rfl : r = 10 ∨ r = 11 := by omega
    all_goals rfl

/-! ## The work vector and the fold (R114 to R118) -/

theorem loadWork_low (h : Chain) {i : Nat} (hi : i < 8) : (loadWork h)[i] = h[i] := Vector.getElem_append_left hi

theorem loadWork_high (h : Chain) {i : Nat} (hi : i < 8) : (loadWork h)[i + 8] = iv[i] := by
  rw [loadWork, Vector.getElem_append_right (by omega) (Nat.le_add_left 8 i)]
  simp only [Nat.add_sub_cancel]

section
variable (t : Counter) (f : Bool) (v : Work)

theorem injectCounter_low : (injectCounter t v)[12] = v[12] ^^^ t.extractLsb' 0 64 := by
  simp [injectCounter, xor64]

theorem injectCounter_high : (injectCounter t v)[13] = v[13] ^^^ t.extractLsb' 64 64 := by
  simp [injectCounter, xor64]

/-- The counter goes into words 12 and 13 only. -/
theorem injectCounter_of_ne {i : Nat} (hi : i < 16) (low : 12 ≠ i) (high : 13 ≠ i) : (injectCounter t v)[i] = v[i] := by
  rw [injectCounter, Vector.getElem_set_ne _ hi high, Vector.getElem_set_ne _ hi low]

theorem injectFinal_last : (injectFinal f v)[14] = if f then ~~~v[14] else v[14] := by
  cases f
  · rfl
  · simp [injectFinal, not64_eq]

/-- The finalization flag goes into word 14 only. -/
theorem injectFinal_of_ne {i : Nat} (hi : i < 16) (h : 14 ≠ i) : (injectFinal f v)[i] = v[i] := by
  cases f
  · rfl
  · exact Vector.getElem_set_ne (by decide) hi h

end

/-- A counter below `2^64` has no high word. -/
theorem counter_high_eq_zero {t : Counter} (small : t.toNat < 2 ^ 64) : t.extractLsb' 64 64 = 0#64 := by
  apply BitVec.eq_of_toNat_eq
  rw [BitVec.extractLsb'_toNat, Nat.shiftRight_eq_div_pow, Nat.div_eq_of_lt small]
  rfl

/-- Settles O20: each word takes the counter, takes the flag, or stays as it was loaded. -/
theorem workVectorBeforeRounds : Obligations.WorkVectorBeforeRounds := by
  intro h t f v
  have word13 : v[13] = iv[5] ^^^ t.extractLsb' 64 64 := by
    rw [injectFinal_of_ne f _ _ (by decide), injectCounter_high, loadWork_high h (i := 5) (by decide)]
  refine ⟨fun i hi => ⟨loadWork_low h hi, loadWork_high h hi⟩, fun i hi => ?_, ?_, word13, fun small => ?_, ?_, ?_⟩
  · rw [injectFinal_of_ne f _ _ (by omega), injectCounter_of_ne t _ _ (by omega) (by omega)]
  · rw [injectFinal_of_ne f _ _ (by decide), injectCounter_low, loadWork_high h (i := 4) (by decide)]
  · rw [word13, counter_high_eq_zero small, BitVec.xor_zero]
  · rw [injectFinal_last, injectCounter_of_ne t _ _ (by decide) (by decide), loadWork_high h (i := 6) (by decide)]
  · rw [injectFinal_of_ne f _ _ (by decide), injectCounter_of_ne t _ _ (by decide) (by decide),
      loadWork_high h (i := 7) (by decide)]

theorem rounds_eq_foldl (m : Block) (n : Nat) (v : Work) :
    rounds m n v = (List.range n).foldl (fun v r => mixRound m r v) v := by
  induction n with
  | zero => rfl
  | succ n ih => rw [rounds, ih, List.range_succ, List.foldl_append, List.foldl_cons, List.foldl_nil]

theorem foldWork_getElem (h : Chain) (v : Work) {i : Nat} (hi : i < 8) :
    (foldWork h v)[i] = h[i] ^^^ v[i] ^^^ v[i + 8] := by
  rw [foldWork, Vector.getElem_ofFn]
  rfl

/-- Settles O21, by `rounds_eq_foldl` and `foldWork_getElem`. -/
theorem twelveRoundsThenFold : Obligations.TwelveRoundsThenFold := by
  intro h m t f v i hi
  rw [compress, foldWork_getElem h _ hi, rounds_eq_foldl]

/-- Settles O22, by running F in the kernel. -/
theorem compressAbcBlock : Obligations.CompressAbcBlock := by
  unfold Obligations.CompressAbcBlock
  decide +kernel

end Sys2Proof.Machine

/-! SUPPORT. The statements on the session's helper operations and commands (spec/41_session_commands.md): the parameter
word, FORM_BLOCK, ABSORB, and the outcome of each command where its checks pass. -/

namespace Sys2Proof.Machine

/-! ## FORM_BLOCK (R53, R144) -/

theorem wordOf_toNat (byte : Nat → Byte) : (wordOf byte).toNat = leValue ((List.range 8).map byte) := by
  have bound := leValue_lt ((List.range 8).map byte)
  rw [List.length_map, List.length_range] at bound
  rw [wordOf, BitVec.toNat_ofNat, Nat.mod_eq_of_lt (by omega)]

/-- Word `i` of FORM_BLOCK is the little-endian value of the bytes `8i .. 8i+7` (R144). -/
theorem formBlock_word_toNat (s : State) {i : Nat} (hi : i < 16) :
    (formBlock s)[i].toNat = leValue ((List.range 8).map fun j => pendingByte s (8 * i + j)) := by
  rw [formBlock, blockOf, Vector.getElem_ofFn, wordOf_toNat]

/-- In a full buffer every byte is pending. -/
theorem pendingByte_of_full {s : State} (full : s.blen.val = 128) {k : Nat} (hk : k < 128) :
    pendingByte s k = s.buf.read k :=
  if_pos (by omega)

/-- Settles O26: a word is the value of eight pending bytes, and in a full buffer those are what MemRead reads. -/
theorem formBlockPadsPendingBytes : Obligations.FormBlockPadsPendingBytes := by
  refine fun s i hi => ⟨?_, fun full => ?_⟩
  · rw [formBlock_word_toNat s hi, leValue_map_range]
    rfl
  · have stored : ∀ j ∈ List.range 8, s.buf.read (8 * i + j) = pendingByte s (8 * i + j) := fun j hj =>
      (pendingByte_of_full full (by have := List.mem_range.1 hj; omega)).symm
    rw [readLE_of_le (by omega), List.map_congr_left stored, formBlock_word_toNat s hi]

/-! ## INIT_STATE (R141) -/

/-- OR with a field that lies above every bit of `x` is addition. -/
theorem or_shiftLeft_eq_add {x k : Nat} (y : Nat) (below : x < 2 ^ k) : x ||| y <<< k = y * 2 ^ k + x := by
  rw [Nat.or_comm, ← Nat.shiftLeft_add_eq_or_of_lt below, Nat.shiftLeft_eq]

/-- The fields of the parameter word do not overlap, so it is their sum. -/
theorem parameterWord_toNat (nn kk : BitVec 7) :
    (parameterWord nn kk).toNat = 0x01010000 + kk.toNat * 2 ^ 8 + nn.toNat := by
  have hn := nn.isLt
  have hk := kk.isLt
  have fields : (parameterWord nn kk).toNat = nn.toNat ||| kk.toNat <<< 8 ||| 1 <<< 16 ||| 1 <<< 24 := by
    have key : kk.toNat <<< 8 < 2 ^ 64 := by rw [Nat.shiftLeft_eq]; omega
    simp only [parameterWord, BitVec.toNat_or, BitVec.toNat_shiftLeft, BitVec.toNat_setWidth,
      Nat.mod_eq_of_lt (show nn.toNat < 2 ^ 64 by omega), Nat.mod_eq_of_lt (show kk.toNat < 2 ^ 64 by omega),
      Nat.mod_eq_of_lt key]
    rfl
  rw [fields, or_shiftLeft_eq_add kk.toNat (k := 8) (by omega), or_shiftLeft_eq_add 1 (k := 16) (by omega),
    or_shiftLeft_eq_add 1 (k := 24) (by omega)]
  omega

theorem parameterWord_eq (nn kk : BitVec 7) :
    parameterWord nn kk = BitVec.ofNat 64 (0x01010000 + kk.toNat * 2 ^ 8 + nn.toNat) := by
  rw [← parameterWord_toNat, BitVec.ofNat_toNat, BitVec.setWidth_eq]

/-- The chaining state of a new session, its parameter word as one sum. -/
theorem initialChain_eq (nn kk : BitVec 7) :
    initialChain nn kk = iv.set 0 (iv[0] ^^^ BitVec.ofNat 64 (0x01010000 + kk.toNat * 2 ^ 8 + nn.toNat)) := by
  rw [← parameterWord_eq]
  rfl

theorem initialChain_zero (nn kk : BitVec 7) :
    (initialChain nn kk)[0] = iv[0] ^^^ BitVec.ofNat 64 (0x01010000 + kk.toNat * 2 ^ 8 + nn.toNat) := by
  rw [initialChain_eq, Vector.getElem_set_self]

theorem initialChain_of_ne_zero (nn kk : BitVec 7) {i : Nat} (hi : i < 8) (h : i ≠ 0) : (initialChain nn kk)[i] = iv[i] :=
  Vector.getElem_set_ne (by decide) hi h.symm

/-- Settles O29: the parameter word is a sum, and `initialChain` differs from `IV` in word 0 only. -/
theorem initStateLoadsParameterWord : Obligations.InitStateLoadsParameterWord := by
  refine ⟨fun s nn kk _ _ => ⟨parameterWord_eq nn kk, initialChain_zero nn kk,
    fun i hi h => initialChain_of_ne_zero nn kk hi h, rfl⟩, fun s => ?_⟩
  change (initialChain 64 0)[0] = _ ∧ (initialChain 32 0)[0] = _ ∧ (initialChain 64 64)[0] = _
  decide

/-! ## ABSORB (R143) -/

/-- Settles O30, by the two cases of ABSORB and the rule for a read after a write. -/
theorem absorbHoldsBackFullBuffer : Obligations.AbsorbHoldsBackFullBuffer := by
  refine fun s b => ⟨fun room => ?_, fun full => ?_, absorb_blen_pos s b, blen_le (absorb s b)⟩
  · exact ⟨_, _, absorb_room room b, rfl, read_write s.buf s.blen.val b⟩
  · exact ⟨_, _, absorb_full full b, rfl, read_write s.buf 0 b⟩

/-! ## Each command where its checks pass or fail (R146 to R150) -/

section
variable {s : State} (f : s.fault = false)
include f

section
variable {nn : BitVec 7} {key : List Byte} (legal : configIllegal nn key = false)
include legal

theorem exec_init_legal : exec (.init nn key) s = .next ((openSession nn key s).answered .ok []) := by
  rw [exec_init f, if_neg (by simp [legal])]

theorem exec_hash_legal (data : List Byte) :
    exec (.hash nn key data) s = .next ((hashed nn key data s).answered .ok (serialize (hashed nn key data s))) := by
  rw [exec_hash f, if_neg (by simp [legal])]

end

section
variable (closed : s.phase ≠ .opened)
include closed

theorem exec_update_closed (data : List Byte) : exec (.update data) s = .next (s.answered .sessionClosed []) := by
  rw [exec_update f, if_pos (sessionClosed_iff.2 closed)]

theorem exec_finalize_closed : exec .finalize s = .next (s.answered .sessionClosed []) := by
  rw [exec_finalize f, if_pos (sessionClosed_iff.2 closed)]

end

variable (o : s.phase = .opened)
include o

theorem exec_update_exceeds {data : List Byte} (exceeds : 2 ^ 128 ≤ s.t.toNat + s.blen.val + data.length) :
    exec (.update data) s = .next { s with fault := true } := by
  rw [exec_update f, if_neg (by simp [sessionClosed_iff, o]), if_pos (counterExceeded_iff.2 exceeds)]

theorem exec_update_fits {data : List Byte} (fits : s.t.toNat + s.blen.val + data.length < 2 ^ 128) :
    exec (.update data) s = .next ((absorbAll s data).answered .ok []) := by
  rw [exec_update f, if_neg (by simp [sessionClosed_iff, o]), if_neg (by rw [counterExceeded_iff]; omega)]

theorem exec_finalize_open : exec .finalize s = .next ((compressLast s).answered .ok (serialize (compressLast s))) := by
  rw [exec_finalize f, if_neg (by simp [sessionClosed_iff, o])]

end

/-- Settles O33, by UPDATE's three outcomes. -/
theorem updateChecksThenAbsorbs : Obligations.UpdateChecksThenAbsorbs :=
  fun _ data f => ⟨fun closed => exec_update_closed f closed data,
    fun o exceeds => exec_update_exceeds f o (by omega), fun o fits => exec_update_fits f o (by omega)⟩

/-- Settles O36: a command that decodes from an illegal header is `<reserved>`, and its frame has been taken. -/
theorem reservedAnswersIllegalCommand : Obligations.ReservedAnswersIllegalCommand := by
  refine ⟨fun s h p f => exec_reserved f h p, fun s i rest r f e illegal => ?_, by decide, rfl⟩
  obtain ⟨wf, header, -⟩ := decode_eq_ok e
  obtain ⟨h, p, rfl⟩ := (reserved_iff_illegal wf).2 (by rwa [header])
  rw [step_command r f e]
  exact exec_reserved (s := { s with commands := rest }) f h p

/-- The operands of INIT and HASH that answer ConfigurationError (R181). -/
theorem configIllegal_of_range {nn : BitVec 7} {key : List Byte}
    (range : nn.toNat = 0 ∨ 64 < nn.toNat ∨ 64 < key.length) : configIllegal nn key = true := by
  rw [configIllegal_iff]
  omega

/-- Settles O31: the opened session field by field. -/
theorem initOpensSession : Obligations.InitOpensSession := by
  refine fun s nn key f => ⟨fun lo hi short => ?_, fun range => exec_init_illegal f (configIllegal_of_range range)⟩
  have kk : (keyLength key).toNat = key.length := Laws.FrameLength.keyLength_toNat (by omega)
  refine ⟨_, exec_init_legal f (configLegal_iff.2 ⟨lo, hi, short⟩), ?_, fun i hi ne => ?_, ?_, ?_, fun a ha => ?_, ?_, ?_, ?_,
    ?_, ?_, ?_, ?_⟩
  · rw [answered_h, openSession_h, initialChain_zero, kk]
  · simp only [answered_h, openSession_h, initialChain_of_ne_zero nn _ hi ne]
  · simp
  · rw [answered_blen, openSession_blen]
    split <;> rfl
  · rw [answered_buf, openSession_read s nn (by omega) ha]
  · simp
  · simp [kk]
  all_goals simp

end Sys2Proof.Machine

/-! SUPPORT. The byte stream of a session as a chain of blocks (spec/41_session_commands.md R147 to R154): what absorbing a
byte stream leaves, and the statements on UPDATE, FINALIZE, HASH and a whole run that follow from it. -/

namespace Sys2Proof.Machine

/-! ## The pending bytes (R24, R144) -/

@[simp] theorem pendingBytes_length (s : State) : (pendingBytes s).length = s.blen.val := by simp [pendingBytes]

theorem pendingBytes_getD (s : State) (k : Nat) : (pendingBytes s).getD k 0 = pendingByte s k := by
  unfold pendingBytes pendingByte
  by_cases pending : k < s.blen.val
  · simp [pending]
  · simp [pending]

/-- FORM_BLOCK is block 0 of the pending bytes. -/
theorem formBlock_eq_streamBlock (s : State) : formBlock s = streamBlock (pendingBytes s) 0 :=
  blockOf_congr fun k _ => by rw [Nat.mul_zero, Nat.zero_add, pendingBytes_getD]

/-- After a byte has been stored, the bytes below it and the byte itself are pending. -/
theorem pendingBytes_bufferByte (n : Fin 128) (b : Byte) (s : State) :
    pendingBytes (bufferByte n b s) = (List.range n.val).map s.buf.read ++ [b] := by
  have below : ∀ k ∈ List.range n.val, (s.buf.write n.val b).read k = s.buf.read k := fun k hk => by
    rw [read_write, if_neg (List.mem_range.1 hk).ne]
  rw [pendingBytes, bufferByte_blen, bufferByte_buf, Fin.val_succ, List.range_succ, List.map_append,
    List.map_congr_left below, List.map_singleton, read_write, if_pos rfl]

theorem pendingBytes_absorb_room {s : State} (room : s.blen.val < 128) (b : Byte) :
    pendingBytes (absorb s b) = pendingBytes s ++ [b] := by
  rw [absorb_room room, pendingBytes_bufferByte, pendingBytes]

theorem pendingBytes_absorb_full {s : State} (full : s.blen.val = 128) (b : Byte) : pendingBytes (absorb s b) = [b] := by
  rw [absorb_full full, pendingBytes_bufferByte]
  rfl

/-- INIT leaves the key block pending, or nothing (R142, R151). -/
theorem pendingBytes_openSession (s : State) (nn : BitVec 7) {key : List Byte} (short : key.length ≤ 128) :
    pendingBytes (openSession nn key s) = keyStream key := by
  rw [pendingBytes, openSession_blen, openSession_buf, keyStream]
  split
  · rfl
  · have stored := map_read_writeBytes s.buf 0 (paddedKey key)
    simp only [paddedKey_length short, Nat.zero_add] at stored
    exact stored

/-! ## Blocks of a stream that goes on (R151) -/

/-- A block that lies inside a stream stays as it is when the stream goes on. -/
theorem streamBlock_append {stream : List Byte} {k : Nat} (inside : 128 * (k + 1) ≤ stream.length) (more : List Byte) :
    streamBlock (stream ++ more) k = streamBlock stream k :=
  blockOf_congr fun j hj => List.getD_append _ _ _ _ (by omega)

/-- The blocks of what is left after `k` blocks are those from block `k` on. -/
theorem streamBlock_drop (stream : List Byte) (k : Nat) : streamBlock (stream.drop (128 * k)) 0 = streamBlock stream k :=
  blockOf_congr fun j _ => by simp [List.getD_eq_getElem?_getD]

theorem interiorChain_append (start : Chain) (base : Counter) {stream : List Byte} {n : Nat}
    (inside : 128 * n ≤ stream.length) (more : List Byte) :
    interiorChain start base (stream ++ more) n = interiorChain start base stream n := by
  induction n with
  | zero => rfl
  | succ n ih => rw [interiorChain, interiorChain, ih (by omega), streamBlock_append inside]

/-- The number of the last block of a byte stream: the block that waits for a further byte (R143, R151). -/
def lastBlock (stream : List Byte) : Nat := (stream.length - 1) / 128

theorem lastBlock_le (stream : List Byte) : 128 * lastBlock stream ≤ stream.length := by
  unfold lastBlock
  omega

/-- With room in the last block a further byte belongs to it. -/
theorem lastBlock_append_room {stream : List Byte} (room : stream.length < 128 * lastBlock stream + 128) (b : Byte) :
    lastBlock (stream ++ [b]) = lastBlock stream := by
  unfold lastBlock at *
  simp only [List.length_append, List.length_singleton]
  omega

/-- A further byte after a full last block begins the next one. -/
theorem lastBlock_append_full {stream : List Byte} (full : stream.length = 128 * lastBlock stream + 128) (b : Byte) :
    lastBlock (stream ++ [b]) = lastBlock stream + 1 := by
  unfold lastBlock at *
  simp only [List.length_append, List.length_singleton]
  omega

/-- A session calls the engine once for each block (R152). -/
theorem engineCalls_pred (stream : List Byte) : engineCalls stream.length - 1 = lastBlock stream := by
  unfold engineCalls lastBlock
  omega

/-! ## Absorbing a byte stream (R147, R151) -/

/-- `s` has absorbed `stream` since its chaining state was `start` and its counter `base`: every block but the last is
compressed, and the last is pending. -/
structure Absorbed (start : Chain) (base : Counter) (stream : List Byte) (s : State) : Prop where
  chain : s.h = interiorChain start base stream (lastBlock stream)
  counter : s.t = base + BitVec.ofNat 128 (128 * lastBlock stream)
  pending : pendingBytes s = stream.drop (128 * lastBlock stream)

/-- A state has absorbed the bytes that are pending in it. -/
theorem absorbed_pendingBytes (s : State) : Absorbed s.h s.t (pendingBytes s) s := by
  have first : lastBlock (pendingBytes s) = 0 := by
    have := blen_le s
    rw [lastBlock, pendingBytes_length]
    omega
  constructor <;> simp [first, interiorChain]

section
variable {start : Chain} {base : Counter} {stream : List Byte} {s : State} (a : Absorbed start base stream s)
include a

theorem Absorbed.blen : s.blen.val = stream.length - 128 * lastBlock stream := by
  rw [← pendingBytes_length, a.pending, List.length_drop]

theorem Absorbed.length : stream.length = 128 * lastBlock stream + s.blen.val := by
  have := a.blen
  have := lastBlock_le stream
  omega

theorem Absorbed.formBlock : formBlock s = streamBlock stream (lastBlock stream) := by
  rw [formBlock_eq_streamBlock, a.pending, streamBlock_drop]

theorem Absorbed.absorb_room (room : s.blen.val < 128) (b : Byte) : Absorbed start base (stream ++ [b]) (absorb s b) := by
  have whole := lastBlock_le stream
  have same := lastBlock_append_room (stream := stream) (by have := a.length; omega) b
  refine ⟨?_, ?_, ?_⟩
  · rw [same, interiorChain_append start base whole, ← a.chain, Machine.absorb_room room, bufferByte_h]
  · rw [same, ← a.counter, Machine.absorb_room room, bufferByte_t]
  · rw [same, pendingBytes_absorb_room room, a.pending, List.drop_append_of_le_length whole]

theorem Absorbed.absorb_full (full : s.blen.val = 128) (b : Byte) : Absorbed start base (stream ++ [b]) (absorb s b) := by
  have length : stream.length = 128 * lastBlock stream + 128 := full ▸ a.length
  have next := lastBlock_append_full length b
  have counter : base + BitVec.ofNat 128 (128 * (lastBlock stream + 1)) = s.t + 128 := by
    rw [a.counter, Nat.mul_add, BitVec.ofNat_add, ← BitVec.add_assoc]
    rfl
  refine ⟨?_, ?_, ?_⟩
  · rw [next, interiorChain, counter, interiorChain_append start base (by omega), ← a.chain,
      streamBlock_append (by omega), ← a.formBlock, Machine.absorb_full full, bufferByte_h, compressInterior_h]
  · rw [next, counter, Machine.absorb_full full, bufferByte_t, compressInterior_t]
  · rw [next, pendingBytes_absorb_full full, List.drop_left' (by omega)]

theorem Absorbed.absorb (b : Byte) : Absorbed start base (stream ++ [b]) (absorb s b) :=
  (room_or_full s).elim (a.absorb_room · b) (a.absorb_full · b)

end

/-- Absorbing more bytes prolongs the stream. -/
theorem Absorbed.absorbAll {start : Chain} {base : Counter} {stream : List Byte} {s : State}
    (a : Absorbed start base stream s) (data : List Byte) :
    Absorbed start base (stream ++ data) (absorbAll s data) := by
  induction data generalizing s stream with
  | nil => simpa using a
  | cons b bs ih => simpa using ih (a.absorb b)

/-- The last compression ends the block chain of the whole stream (R152). -/
theorem Absorbed.compressLast {start : Chain} {stream : List Byte} {s : State} (a : Absorbed start 0 stream s) :
    (compressLast s).h = sessionChain start stream ∧ (compressLast s).t = BitVec.ofNat 128 stream.length := by
  have counter : s.t + BitVec.ofNat 128 s.blen.val = BitVec.ofNat 128 stream.length := by
    rw [a.counter, zero_add, ← BitVec.ofNat_add, ← a.length]
  refine ⟨?_, ?_⟩
  · rw [compressLast_h, counter, a.formBlock, a.chain, sessionChain, engineCalls_pred]
  · rw [compressLast_t, counter]

/-! ## The bytes ABSORB stores (R143) -/

theorem absorb_blen (s : State) (b : Byte) : (absorb s b).blen.val = s.blen.val % 128 + 1 := by
  rcases room_or_full s with room | full
  · simp [absorb_room room, Nat.mod_eq_of_lt room]
  · simp [absorb_full full, full]

/-- ABSORB stores its byte at `BLEN mod 128`. -/
theorem absorb_read (s : State) (b : Byte) (x : Nat) :
    (absorb s b).buf.read x = if x = s.blen.val % 128 then b else s.buf.read x := by
  rcases room_or_full s with room | full
  · rw [absorb_room room, bufferByte_buf, read_write, Nat.mod_eq_of_lt room]
  · rw [absorb_full full, bufferByte_buf, read_write, full]
    rfl

theorem absorbAll_snoc (s : State) (data : List Byte) (b : Byte) :
    absorbAll s (data ++ [b]) = absorb (absorbAll s data) b :=
  absorbAll_append s data [b]

theorem absorbAll_blen_mod (s : State) (data : List Byte) :
    (absorbAll s data).blen.val % 128 = (s.blen.val + data.length) % 128 := by
  induction data using List.reverseRecOn with
  | nil => simp
  | append_singleton data b ih =>
    rw [absorbAll_snoc, absorb_blen, List.length_append, List.length_singleton]
    omega

/-- Each of the last 128 bytes absorbed is where it was stored. -/
theorem absorbAll_read_stored (s : State) (data : List Byte) {j : Nat} (hj : j < data.length) (late : data.length ≤ j + 128) :
    (absorbAll s data).buf.read ((s.blen.val + j) % 128) = data.getD j 0 := by
  induction data using List.reverseRecOn with
  | nil => exact absurd hj (Nat.not_lt_zero j)
  | append_singleton data b ih =>
    simp only [List.length_append, List.length_singleton] at hj late
    rw [absorbAll_snoc, absorb_read, absorbAll_blen_mod]
    by_cases last : j = data.length
    · subst last
      simp
    · rw [if_neg (by omega), ih (by omega) (by omega), List.getD_append _ _ _ _ (by omega)]

/-- An address to which no byte is stored reads as before. -/
theorem absorbAll_read_kept (s : State) (data : List Byte) {x : Nat}
    (free : ∀ j < data.length, (s.blen.val + j) % 128 ≠ x) : (absorbAll s data).buf.read x = s.buf.read x := by
  induction data using List.reverseRecOn with
  | nil => rfl
  | append_singleton data b ih =>
    simp only [List.length_append, List.length_singleton] at free
    rw [absorbAll_snoc, absorb_read, absorbAll_blen_mod, if_neg (free data.length (by omega)).symm]
    exact ih fun j hj => free j (by omega)

/-! ## UPDATE, FINALIZE and HASH (R147 to R149) -/

/-- Settles O32: the state has absorbed the pending bytes followed by the data. -/
theorem updateCompressesAllButLastBlock : Obligations.UpdateCompressesAllButLastBlock := by
  refine fun s data f o fits => ⟨_, exec_update_fits f o fits, ?_⟩
  have a := (absorbed_pendingBytes s).absorbAll data
  have length : (pendingBytes s ++ data).length = s.blen.val + data.length := by simp
  have whole := lastBlock_le (pendingBytes s ++ data)
  refine ⟨?_, a.chain, a.blen, a.pending, fun j hj late => absorbAll_read_stored s data hj late,
    fun x _ free => absorbAll_read_kept s data free, ?_⟩
  · rw [answered_t, a.counter, BitVec.toNat_add, BitVec.toNat_ofNat, Nat.add_mod_mod, Nat.mod_eq_of_lt (by omega)]
    rfl
  · simp

/-- Settles O34: the last compression field by field, and the digest's bytes by `digestIsLittleEndianPrefix`. -/
theorem finalizeCompressesLastBlock : Obligations.FinalizeCompressesLastBlock := by
  refine fun s f => ⟨fun o => ⟨_, _, exec_finalize_open f o, rfl, fun fits => ?_, ?_, rfl, rfl, rfl, rfl, rfl, rfl, rfl, rfl,
    rfl, fun legal => digestIsLittleEndianPrefix (compressLast s) legal⟩, fun closed => exec_finalize_closed f closed⟩
  · rw [answered_t, compressLast_t, BitVec.toNat_add, BitVec.toNat_ofNat, Nat.add_mod_mod, Nat.mod_eq_of_lt fits]
  · rw [answered_h, compressLast_h, formBlock_eq_streamBlock, answered_t, compressLast_t]

/-- `s` with other bytes waiting and other responses sent: the two streams, which the session's operations do not read. -/
def State.withStreams (s : State) (commands : List Byte) (responses : List Response) : State :=
  { s with commands := commands, responses := responses }

section
variable (s : State) (commands : List Byte) (responses : List Response)

theorem openSession_withStreams (nn : BitVec 7) (key : List Byte) :
    openSession nn key (s.withStreams commands responses) = (openSession nn key s).withStreams commands responses := by
  cases key <;> rfl

theorem absorb_withStreams (b : Byte) :
    absorb (s.withStreams commands responses) b = (absorb s b).withStreams commands responses := by
  rcases room_or_full s with room | full
  · rw [absorb_room room, absorb_room (s := s.withStreams commands responses) room]
    rfl
  · rw [absorb_full full, absorb_full (s := s.withStreams commands responses) full]
    rfl

theorem absorbAll_withStreams (data : List Byte) :
    absorbAll (s.withStreams commands responses) data = (absorbAll s data).withStreams commands responses := by
  induction data generalizing s with
  | nil => rfl
  | cons b bs ih => rw [absorbAll_cons, absorb_withStreams, ih, absorbAll_cons]

end

theorem absorbAll_answered (s : State) (status : Status) (payload data : List Byte) :
    absorbAll (s.answered status payload) data = (absorbAll s data).answered status payload := by
  rw [State.answered, absorbAll_responses, State.answered, absorbAll_keeps_responses]

/-- A response stream ends in one response only. -/
theorem answer_unique {sent : List Response} {a b : Response} (h : sent ++ [a] = sent ++ [b]) : a = b := by
  simpa using h

/-- A session that INIT has opened has room in its counter for all the data of one frame (R147). -/
theorem openSession_fits (s : State) (nn : BitVec 7) (key : List Byte) {data : List Byte} (countable : data.length < 2 ^ 64) :
    (openSession nn key s).t.toNat + (openSession nn key s).blen.val + data.length < 2 ^ 128 := by
  have := blen_le (openSession nn key s)
  have : (openSession nn key s).t.toNat = 0 := by simp
  omega

/-- Settles O35: the responses that the three commands send are all that tells the two states apart. -/
theorem hashIsInitUpdateFinalize : Obligations.HashIsInitUpdateFinalize := by
  refine fun s nn key data f countable => ⟨fun lo hi short => ?_,
    fun range => exec_hash_illegal f (configIllegal_of_range range) data⟩
  have legal := configLegal_iff.2 ⟨lo, hi, short⟩
  have opened : ((openSession nn key s).answered .ok []).phase = .opened := openSession_phase s nn key
  have updated := exec_update_fits (s := (openSession nn key s).answered .ok []) (by simp [f]) opened
    (openSession_fits s nn key countable)
  rw [absorbAll_answered] at updated
  refine ⟨_, _, _, _, exec_init_legal f legal, updated, exec_finalize_open (by simp [f]) (by simp), rfl, ?_⟩
  rw [exec_hash_legal f legal, State.answered, compressLast_responses, absorbAll_keeps_responses, openSession_responses]
  rfl

/-- What a FINALIZE that answers OK has done (R148). -/
theorem exec_finalize_ok {s t : State} {digest : List Byte} (h : exec .finalize s = .next t)
    (sent : t.responses = s.responses ++ [⟨.ok, digest⟩]) : s.phase = .opened ∧ digest = serialize (compressLast s) := by
  obtain ⟨-, ⟨-, rfl⟩ | ⟨o, rfl⟩⟩ := execFinalize_cases h
  · cases answer_unique sent
  · cases answer_unique sent
    exact ⟨o, rfl⟩

/-- What a HASH that answers OK has done (R149). -/
theorem exec_hash_ok {s t : State} {nn : BitVec 7} {key data digest : List Byte} (h : exec (.hash nn key data) s = .next t)
    (sent : t.responses = s.responses ++ [⟨.ok, digest⟩]) :
    configIllegal nn key = false ∧ t.nn = nn ∧ digest = serialize (hashed nn key data s) := by
  obtain ⟨-, ⟨-, rfl⟩ | ⟨legal, rfl⟩⟩ := execHash_cases h
  · cases answer_unique sent
  · rw [answered_responses, compressLast_responses, absorbAll_keeps_responses, openSession_responses] at sent
    cases answer_unique sent
    exact ⟨legal, by simp, rfl⟩

/-- Settles O45: a digest is SERIALIZE of the state it is answered from, and a HASH opens a session that depends on its
operands only. -/
theorem digestLengthAndDeterminism : Obligations.DigestLengthAndDeterminism := by
  refine ⟨fun s t digest inv h sent => ?_, fun s t nn key data digest h sent => ?_,
    fun s t s' t' nn key data digest digest' h sent h' sent' => ?_⟩
  · obtain ⟨o, rfl⟩ := exec_finalize_ok h sent
    obtain ⟨-, ⟨hi, -, lo⟩, -⟩ := inv
    exact ⟨serialize_length hi, lo (by simp [o]), hi⟩
  · obtain ⟨legal, hnn, rfl⟩ := exec_hash_ok h sent
    obtain ⟨lo, hi, -⟩ := configLegal_iff.1 legal
    have bound : (hashed nn key data s).nn.toNat = nn.toNat := by simp
    exact ⟨(serialize_length (bound ▸ hi)).trans bound, hnn, lo, hi⟩
  · obtain ⟨legal, -, rfl⟩ := exec_hash_ok h sent
    obtain ⟨-, -, rfl⟩ := exec_hash_ok h' sent'
    obtain ⟨-, -, short⟩ := configLegal_iff.1 legal
    exact ((openSession_sameData s s' nn short).absorbAll data).serialize_compressLast

/-- Settles O48: ABSORB over a concatenation is ABSORB over its two parts. -/
theorem chunkingInvariance : Obligations.ChunkingInvariance := by
  intro s first second f o fits
  obtain ⟨total, -, -⟩ := absorbAll_counts first (show s.t.toNat + s.blen.val + first.length < 2 ^ 128 by omega)
  refine ⟨_, _, exec_update_fits f o (by omega), exec_update_fits (by simp [f]) (by simp [o]) ?_, ?_⟩
  · rw [answered_t, answered_blen, total]
    exact fits
  · rw [exec_update_fits f o (by rw [List.length_append]; omega), absorbAll_append, absorbAll_answered, State.answered]
    simp only [absorbAll_keeps_responses]
    rfl

/-- A full buffer may be compressed before the next byte arrives: ABSORB of that byte does it otherwise (R154). -/
theorem absorb_compressInterior {s : State} (full : s.blen.val = 128) (b : Byte) :
    absorb (compressInterior s) b = absorb s b := by
  rw [absorb_full full, absorb_room (s := compressInterior s) (Nat.zero_lt_succ 127)]
  rfl

/-- UPDATE of at least one byte does not tell whether a full buffer has been compressed already. -/
theorem exec_update_compressInterior {s : State} (f : s.fault = false) (o : s.phase = .opened) (full : s.blen.val = 128)
    {data : List Byte} (more : data ≠ []) (fits : s.t.toNat + s.blen.val + data.length < 2 ^ 128) :
    exec (.update data) (compressInterior s) = exec (.update data) s := by
  obtain ⟨b, bs, rfl⟩ := List.exists_cons_of_ne_nil more
  have early : (compressInterior s).t.toNat + (compressInterior s).blen.val = s.t.toNat + s.blen.val := by
    have range : s.t.toNat + (128 : Counter).toNat < 2 ^ 128 := (Nat.le_add_right _ _).trans_lt (full ▸ fits)
    rw [compressInterior_t, BitVec.toNat_add, Nat.mod_eq_of_lt range, full]
    rfl
  rw [exec_update_fits f o fits, exec_update_fits (s := compressInterior s) f o (by rwa [early]), absorbAll_cons,
    absorbAll_cons, absorb_compressInterior full]

/-- Settles O49: the first data byte finds the buffer full of the key block, and compresses it. -/
theorem heldBackKeyEqualsEagerKey : Obligations.HeldBackKeyEqualsEagerKey := by
  intro s s1 nn key data keyed short more countable h o sent
  obtain ⟨f, ⟨-, rfl⟩ | ⟨-, rfl⟩⟩ := execInit_cases h
  · cases answer_unique sent
  have held : formBlock (openSession nn key s) = streamBlock (paddedKey key) 0 := by
    rw [formBlock_eq_streamBlock, pendingBytes_openSession s nn (by omega), keyStream, if_neg keyed]
  have full : (openSession nn key s).blen.val = 128 := by
    rw [openSession_blen, if_neg keyed]
    rfl
  have counter : (openSession nn key s).t + 128 = 128 := by simp
  refine (exec_update_compressInterior (by simp [f]) o full more (openSession_fits s nn key countable)).symm.trans ?_
  rw [← held, ← counter]
  rfl

/-! ## A run over the frames of one session (R61, R151, R152) -/

section
variable {s : State} (r : s.rst = false) (f : s.fault = false) (tail : List Byte) (sent : List Response)
include r f

/-- A step on INIT's frame opens the session, consumes the frame and answers it. -/
theorem step_initFrame {nn : BitVec 7} {key : List Byte} (legal : configIllegal nn key = false) :
    step (s.withStreams (encode (.init nn key) ++ tail) sent)
      = .next ((openSession nn key s).withStreams tail (sent ++ [⟨.ok, []⟩])) := by
  have wf : (Instr.init nn key).wf = true := by
    have := configLegal_iff.1 legal
    simp only [Instr.wf, keyFits, decide_eq_true_eq]
    omega
  rw [step_command (s := s.withStreams _ sent) r f (decode_encode wf tail)]
  exact (exec_init_legal (s := s.withStreams tail sent) f legal).trans (by rw [openSession_withStreams]; rfl)

variable (o : s.phase = .opened)
include o

/-- A step on UPDATE's frame absorbs the data, consumes the frame and answers it. -/
theorem step_updateFrame {data : List Byte} (countable : data.length < 2 ^ 64)
    (fits : s.t.toNat + s.blen.val + data.length < 2 ^ 128) :
    step (s.withStreams (encode (.update data) ++ tail) sent)
      = .next ((absorbAll s data).withStreams tail (sent ++ [⟨.ok, []⟩])) := by
  have wf : (Instr.update data).wf = true := by simpa [Instr.wf, dataFits] using countable
  rw [step_command (s := s.withStreams _ sent) r f (decode_encode wf tail)]
  exact (exec_update_fits (s := s.withStreams tail sent) f o fits).trans (by rw [absorbAll_withStreams]; rfl)

/-- A step on FINALIZE's frame compresses the last block, consumes the frame and answers the digest. -/
theorem step_finalizeFrame :
    step (s.withStreams (encode .finalize ++ tail) sent)
      = .next ((compressLast s).withStreams tail (sent ++ [⟨.ok, serialize (compressLast s)⟩])) := by
  rw [step_command (s := s.withStreams _ sent) r f (decode_encode rfl tail)]
  exact exec_finalize_open (s := s.withStreams tail sent) f o

end

/-- A run over UPDATE's frames absorbs all their data in order and answers each of them, however the data is cut (R153). -/
theorem run_updateFrames {s : State} (r : s.rst = false) (f : s.fault = false) (o : s.phase = .opened)
    (tail : List Byte) (sent : List Response) {pieces : List (List Byte)} (countable : ∀ piece ∈ pieces, piece.length < 2 ^ 64)
    (fits : s.t.toNat + s.blen.val + pieces.flatten.length < 2 ^ 128) (n : Nat) :
    run (pieces.length + n) (s.withStreams ((pieces.flatMap fun piece => encode (.update piece)) ++ tail) sent)
      = run n ((absorbAll s pieces.flatten).withStreams tail (sent ++ List.replicate pieces.length ⟨.ok, []⟩)) := by
  induction pieces generalizing s sent with
  | nil => simp
  | cons piece pieces ih =>
    rw [List.flatten_cons, List.length_append] at fits
    obtain ⟨total, -, -⟩ := absorbAll_counts piece (show s.t.toNat + s.blen.val + piece.length < 2 ^ 128 by omega)
    have first := step_updateFrame r f ((pieces.flatMap fun piece => encode (.update piece)) ++ tail) sent o
      (countable piece List.mem_cons_self) (by omega)
    rw [List.length_cons, Nat.add_right_comm, List.flatMap_cons, List.append_assoc, run_next first,
      ih (by simpa) (by simpa) (by simpa) _ (fun p hp => countable p (List.mem_cons_of_mem piece hp)) (by omega),
      List.flatten_cons, absorbAll_append, List.replicate_succ, List.append_assoc, List.singleton_append]

/-- A run over the frames of a session leaves the state that one HASH of all its data leaves, every frame answered. -/
theorem run_sessionFrames {s : State} (r : s.rst = false) (f : s.fault = false) {nn : BitVec 7} {key : List Byte}
    (legal : configIllegal nn key = false) (tail : List Byte) (sent : List Response) {pieces : List (List Byte)}
    (countable : ∀ piece ∈ pieces, piece.length < 2 ^ 64)
    (fits : (keyStream key ++ pieces.flatten).length < 2 ^ 128) :
    run (pieces.length + 2) (s.withStreams
        (encode (.init nn key) ++ (pieces.flatMap fun piece => encode (.update piece)) ++ encode .finalize ++ tail) sent)
      = .next ((hashed nn key pieces.flatten s).withStreams tail
          (sent ++ List.replicate (pieces.length + 1) ⟨.ok, []⟩
            ++ [⟨.ok, serialize (hashed nn key pieces.flatten s)⟩])) := by
  obtain ⟨-, -, short⟩ := configLegal_iff.1 legal
  have room : (openSession nn key s).t.toNat + (openSession nn key s).blen.val + pieces.flatten.length < 2 ^ 128 := by
    rw [← pendingBytes_length, pendingBytes_openSession s nn (by omega), openSession_t]
    simpa using fits
  rw [List.append_assoc, List.append_assoc, run_next (step_initFrame r f _ _ legal),
    run_updateFrames (by simpa) (by simpa) (by simp) _ _ countable room,
    run_next (step_finalizeFrame (by simpa) (by simpa) _ _ (by simp)), List.replicate_succ]
  simp [run]

/-- The chaining state and the counter of a session that has hashed `data` (R151, R152). -/
theorem hashed_chain (s : State) (nn : BitVec 7) {key : List Byte} (short : key.length ≤ 64) (data : List Byte) :
    (hashed nn key data s).h
        = sessionChain (iv.set 0 (iv[0] ^^^ BitVec.ofNat 64 (0x01010000 + key.length * 2 ^ 8 + nn.toNat)))
            (keyStream key ++ data)
      ∧ (hashed nn key data s).t = BitVec.ofNat 128 (keyStream key ++ data).length := by
  have a := (absorbed_pendingBytes (openSession nn key s)).absorbAll data
  rw [pendingBytes_openSession s nn (by omega), openSession_h, openSession_t, initialChain_eq,
    Laws.FrameLength.keyLength_toNat (by omega)] at a
  exact a.compressLast

/-- Settles O51: the run is one HASH of all the data, and that is the block chain of the session's stream. -/
theorem sessionRunHashesByteStream : Obligations.SessionRunHashesByteStream := by
  intro s nn key rest pieces r f lo hi short countable fits frames
  obtain ⟨chain, counter⟩ := hashed_chain s nn short pieces.flatten
  have ran := run_sessionFrames r f (configLegal_iff.2 ⟨lo, hi, short⟩) rest s.responses countable fits
  rw [← frames] at ran
  refine ⟨_, ran, chain, ?_, rfl, ?_, ?_, ?_, ?_, rfl, ?_⟩
  · exact (congrArg BitVec.toNat counter).trans (by rw [BitVec.toNat_ofNat, Nat.mod_eq_of_lt fits])
  all_goals simp [State.withStreams, serialize, r, f, Laws.FrameLength.keyLength_toNat (show key.length < 2 ^ 7 by omega)]

end Sys2Proof.Machine

/-! SUPPORT. The statements on the error conditions and the fault (spec/60_exceptions.md): which command answers which
error, what an error leaves alone, and the order of the checks; and the steps that take no command. -/

namespace Sys2Proof.Machine

/-! ## What an error answer says of the command (R181, R183) -/

/-- The status of the one response that a command has added. -/
theorem answered_status {s u : State} {status sentStatus : Status} {payload sentPayload : List Byte}
    (kept : u.responses = s.responses)
    (sent : (u.answered status payload).responses = s.responses ++ [⟨sentStatus, sentPayload⟩]) : status = sentStatus := by
  rw [answered_responses, kept] at sent
  exact congrArg Response.status (answer_unique sent)

section
variable {i : Instr} {s t : State} {payload : List Byte} (h : exec i s = .next t)
include h

/-- A command that answers an error has sent that response and done nothing else (R183). -/
theorem exec_answers_error {status : Status} (sent : t.responses = s.responses ++ [⟨status, payload⟩])
    (error : status ≠ .ok) : t = s.answered status payload := by
  obtain ⟨_, -, rfl⟩ | ⟨nn, key, -, -, rfl⟩ | ⟨data, -, -, -, rfl⟩ | ⟨data, -, -, -, rfl⟩ | ⟨-, -, rfl⟩
    | ⟨nn, key, data, -, -, rfl⟩ := exec_cases h
  · cases answer_unique sent
    rfl
  · exact absurd (answered_status (openSession_responses s nn key) sent).symm error
  · simp at sent
  · exact absurd (answered_status (absorbAll_keeps_responses s data) sent).symm error
  · exact absurd (answered_status (compressLast_responses s) sent).symm error
  · exact absurd (answered_status (u := hashed nn key data s) (by simp) sent).symm error

/-- A command that answers ConfigurationError is an INIT or a HASH with an illegal length (R181). -/
theorem exec_answers_configError (sent : t.responses = s.responses ++ [⟨.configError, payload⟩]) :
    ∃ nn key, (i = .init nn key ∨ ∃ data, i = .hash nn key data) ∧ configIllegal nn key = true := by
  cases i with
  | init nn key =>
    obtain ⟨-, ⟨illegal, -⟩ | ⟨-, rfl⟩⟩ := execInit_cases h
    · exact ⟨nn, key, .inl rfl, illegal⟩
    · cases answered_status (openSession_responses s nn key) sent
  | update data =>
    obtain ⟨-, ⟨-, rfl⟩ | ⟨-, -, rfl⟩ | ⟨-, -, rfl⟩⟩ := execUpdate_cases h
    · cases answered_status rfl sent
    · simp at sent
    · cases answered_status (absorbAll_keeps_responses s data) sent
  | finalize =>
    obtain ⟨-, ⟨-, rfl⟩ | ⟨-, rfl⟩⟩ := execFinalize_cases h
    · cases answered_status rfl sent
    · cases answered_status (compressLast_responses s) sent
  | hash nn key data =>
    obtain ⟨-, ⟨illegal, -⟩ | ⟨-, rfl⟩⟩ := execHash_cases h
    · exact ⟨nn, key, .inr ⟨data, rfl⟩, illegal⟩
    · cases answered_status (u := hashed nn key data s) (by simp) sent
  | reserved hd p =>
    obtain ⟨-, rfl⟩ := execReserved_cases (hd := hd) (p := p) h
    cases answered_status rfl sent

end

/-- Settles O39: the state after an error answer differs from the one before in the response stream only. -/
theorem errorsWriteNoRegister : Obligations.ErrorsWriteNoRegister := by
  intro i s t status payload h sent error
  obtain rfl := exec_answers_error h sent error
  simp

/-- Settles O37: the check of INIT and HASH one way, `exec_answers_configError` the other. -/
theorem configurationErrorOnlyAtConstruction : Obligations.ConfigurationErrorOnlyAtConstruction := by
  refine ⟨fun s nn key data f range => ?_, fun s t data p h sent => ?_, fun i s t p h sent => ?_⟩
  · have illegal := configIllegal_iff.2 range
    exact ⟨exec_init_illegal f illegal, exec_hash_illegal f illegal data⟩
  · obtain update | finalize := h
    · simpa using exec_answers_configError update sent
    · simpa using exec_answers_configError finalize sent
  · obtain ⟨nn, key, command, illegal⟩ := exec_answers_configError h sent
    exact ⟨nn, key, command, configIllegal_iff.1 illegal⟩

/-! ## The session's phase, the counter and the order of the checks (R182, R185, R186) -/

/-- Settles O38: neither phase is OPEN. -/
theorem closedSessionRejectsUpdateAndFinalize : Obligations.ClosedSessionRejectsUpdateAndFinalize := by
  intro s data f phase
  have closed : s.phase ≠ .opened := by
    obtain idle | finalized := phase
    · simp [idle]
    · simp [finalized]
  exact ⟨exec_update_closed f closed data, exec_finalize_closed f closed⟩

/-- Settles O40, by UPDATE's outcome past the counter's range. -/
theorem counterOverflowSetsFaultOnly : Obligations.CounterOverflowSetsFaultOnly :=
  fun _ _ f o exceeds => exec_update_exceeds f o (by omega)

/-- Settles O41: each condition answers without a hypothesis on those below it, the counter's range among them. -/
theorem conditionPriority : Obligations.ConditionPriority := by
  obtain ⟨configError, -, -⟩ := configurationErrorOnlyAtConstruction
  refine ⟨fun s r f => step_halted r f, fun s h p rest r f _ e => ?_, configError, fun s data f closed => ?_,
    counterOverflowSetsFaultOnly⟩
  · rw [step_command r f e]
    exact exec_reserved (s := { s with commands := rest }) f h p
  · exact ⟨exec_update_closed f closed data, exec_finalize_closed f closed⟩

/-! ## The steps that take no command (R193, R200) -/

/-- Settles O9: an idle step is the identity, and the reset event clears the stream and its own signal. -/
theorem idleKeepsStateResetEmptiesStream : Obligations.IdleKeepsStateResetEmptiesStream :=
  ⟨fun _ r f c => step_idle r f c,
    fun s r => ⟨resetEvent s, step_reset r, resetEvent_commands s, resetEvent_rst s⟩⟩

end Sys2Proof.Machine

/-! SUPPORT. The statements on reset (spec/70_reset_and_hazards.md): what the reset event leaves, and what each command does
on the state after reset. -/

namespace Sys2Proof.Machine

/-- Settles O11: the reset event leaves the registers of `State.reset` and the responses already sent. -/
theorem resetEventSetsEveryRegister : Obligations.ResetEventSetsEveryRegister := by
  intro s r
  obtain ⟨-, fault, h, t, buf, blen, nn, kk⟩ := resetValues
  exact ⟨resetEvent s, step_reset r, resetEvent_phase s, fault, h, t, buf, blen, nn, kk, resetEvent_responses s⟩

/-- Settles O13: after reset `FAULT` is 0 and no session is open, so each command has the outcome its checks give. -/
theorem commandsAfterReset : Obligations.CommandsAfterReset := by
  obtain ⟨-, f, -⟩ := resetValues
  have closed : State.reset.phase ≠ .opened := nofun
  refine ⟨exec_update_closed f closed, exec_finalize_closed f closed, exec_reserved f, fun nn key data lo hi short => ?_⟩
  have legal : configIllegal nn key = false := configLegal_iff.2 ⟨lo, hi, short⟩
  refine ⟨⟨_, exec_init_legal f legal, ?_⟩, _, serialize (hashed nn key data State.reset), exec_hash_legal f legal data, ?_⟩
  · rw [answered_phase, openSession_phase]
  · rw [answered_responses, compressLast_responses, absorbAll_keeps_responses, openSession_responses]
    rfl

end Sys2Proof.Machine
